-- ==== Sys2Proof/Word.lean ====
section
/-! DEFINITION. The words of the voice-control block: the widths of rules R7, R8, R21, R91 and R96,
the register-write triple of rule R31 and the operator names of the glossary. -/

namespace Sys2Proof

/-- An 8-bit register address or register datum (`DATA_W = 8`, R7). -/
abbrev Byte := BitVec 8
/-- The port select, one bit (R7 `NUM_PORTS`, R21). -/
abbrev Port := BitVec 1
/-- A note operand, `NOTE_W = 8` bits (R8, D4). -/
abbrev Note := BitVec 8
/-- A velocity operand, `VEL_W = 7` bits (R8, D4). -/
abbrev Velocity := BitVec 7
/-- The host command word `cmd_word[16:0]`, format H (R91). -/
abbrev CommandWord := BitVec 17
/-- The bus-transaction word, format B (R96). -/
abbrev BusWord := BitVec 17

/-- The document's RegisterWrite: "transient value: (address: 8-bit, data: 8-bit, port: 0|1)" (R31, R96). -/
structure RegWrite where
  address : Byte
  data : Byte
  port : Port
  deriving DecidableEq, Repr

/-- The four sound-generating stages of a voice, numbered 1 to 4 (glossary of 00_scope.md, R189). -/
inductive Operator where
  | op1 | op2 | op3 | op4
  deriving DecidableEq, Repr

end Sys2Proof
end

