-- ==== Sys2Proof/Config.lean ====
section
/-! DEFINITION. The parameters of rule R8: the type of a configuration, and the values the spec leaves
OPEN as opaque constants that no proof can look into. The spec's defaults stand in Machine/Constants.lean. -/

namespace Sys2Proof

/-- The parameters of R8. "A model takes each as an argument": every rule reads them from the state's
`cfg`, which no step changes (log 2). `BASE_FREQ[s]` is the exact fraction `baseNum[s] / baseDen` hertz, the
common-denominator form of R128 (log 4). -/
structure Params where
  /-- The numerators `N[0..11]` of `BASE_FREQ` (R122, R128). -/
  baseNum : Vector Nat 12
  /-- The common denominator `D` of `BASE_FREQ` (R128). -/
  baseDen : Nat
  /-- `T_SETTLE`, the lower bound of each settle wait, in a unit of the implementation's (R8, D21). -/
  tSettle : Nat
  /-- `ALG`, the one global FM algorithm, 0..7 (R189, D17). -/
  alg : Fin 8
  /-- `TL_ADDR[1..4]`, the Total-Level addresses of voice slot 0, operator 1 first (R8, D19). -/
  tlAddr : Vector Byte 4
  /-- `KEY_PORT`, the port of the writes to register 0x28 (R8, D20). -/
  keyPort : Port
  /-- `VOICE_PROGRAM`, the finite list of writes `INIT` plays (R8, R195, D9). -/
  voiceProgram : List RegWrite
  /-- `A0_DATA_LEVEL`, the electrical level of pin A0 in the data phase (R8, R30, D22). -/
  a0DataLevel : BitVec 1
  deriving DecidableEq, Repr

namespace Config

/-- OPEN (R8, D17): the spec gives no value of `ALG`. Log 2. -/
opaque alg : Fin 8
/-- OPEN (R8, D21): `T_SETTLE` is this plus one, since R9 (f) asks `T_SETTLE > 0`. Log 2. -/
opaque settleBelow : Nat
/-- OPEN (R8, D9): the tone data is out of scope (R5). Log 2. -/
opaque voiceProgram : List RegWrite
/-- OPEN (R8, D22, C3): §6 and §4.3 of the source disagree about pin A0. Log 2. -/
opaque a0DataLevel : BitVec 1

end Config

end Sys2Proof
end

