-- ==== Sys2Proof/Machine/Constants.lean ====
section
/-! DEFINITION. The constants the document fixes (R7) and the defaults the spec offers for open parameters
(R8, R122). `Params.atReset` is the configuration a block is instantiated with in `State.reset`. -/

namespace Sys2Proof.Machine

/-- `SEMITONES` (R7). -/
def semitones : Nat := 12
/-- `OCTAVE_BIAS`: the scale factor is `2^(octaveIndex - 5)` (R7, R124). -/
def octaveBias : Nat := 5
/-- `NOTE_MAX = 12 * 10 + 11` (R7, R121). -/
def noteMax : Nat := 131
/-- `BLOCK_INIT` (R7, R125). -/
def blockInit : Nat := 2
/-- `FNUM_LIMIT` (R7, R125). -/
def fnumLimit : Nat := 2048
/-- `FREQ_HI_BASE` (R7). -/
def freqHiBase : Byte := 0xA4
/-- `FREQ_LO_BASE` (R7). -/
def freqLoBase : Byte := 0xA0
/-- `KEY_REG`, the global key-on/off register (R7). -/
def keyReg : Byte := 0x28
/-- `KEY_ALL_OPS`: "0xF0 keys all four" operators (R7, R185). -/
def keyAllOps : Byte := 0xF0
/-- `VEL_REF`: the attenuation is `100 - value` (R7, R187). -/
def velRef : Byte := 100
/-- The "LFO" register (R34). -/
def lfoReg : Byte := 0x22
/-- The "special mode" register (R34). -/
def modeReg : Byte := 0x27
/-- The "DAC enable" register (R34). -/
def dacReg : Byte := 0x2B
/-- The "feedback/algorithm" register of voice slot 0 (R34). -/
def fbAlgBase : Byte := 0xB0
/-- The "pan" register of voice slot 0 (R34). -/
def panBase : Byte := 0xB4

/-- The numerators of the default `BASE_FREQ` of R122, in hundredths of a hertz. PRESUMED: the spec itself
marks the table as general knowledge. Log 3. -/
def defaultBaseNum : Vector Nat 12 :=
  #v[26163, 27718, 29366, 31113, 32963, 34923, 36999, 39200, 41530, 44000, 46616, 49388]

/-- The default `TL_ADDR[1..4]` of R8. PRESUMED: the spec itself marks it as general knowledge. Log 3. -/
def defaultTlAddr : Vector Byte 4 := #v[0x40, 0x48, 0x44, 0x4C]

/-- The default `KEY_PORT` of R8 (D20). Log 3. -/
def defaultKeyPort : Port := 0

/-- The configuration with the spec's defaults and the open parameters given as arguments (R8). -/
def defaultParams (alg : Fin 8) (tSettle : Nat) (voiceProgram : List RegWrite) (a0 : BitVec 1) : Params where
  baseNum := defaultBaseNum
  baseDen := 100
  tSettle := tSettle
  alg := alg
  tlAddr := defaultTlAddr
  keyPort := defaultKeyPort
  voiceProgram := voiceProgram
  a0DataLevel := a0

/-- The configuration of `State.reset`: defaults where R8 gives one, opaque constants where it gives none
(log 2, log 3). -/
def Params.atReset : Params :=
  defaultParams Config.alg (Config.settleBelow + 1) Config.voiceProgram Config.a0DataLevel

end Sys2Proof.Machine
end

