-- ==== Sys2Proof/Machine/Operands.lean ====
section
/-! DEFINITION. Operand assembly (R97): the values the block forms from its operands, the derived fields of
a slot (R22), the addresses (R66, R67), the key data (R185, R192), the attenuation (R187), the audible
operators (R189), and the split and packing of the frequency code (R123, R127). -/

namespace Sys2Proof

/-- The numerator of `BASE_FREQ[s]` (R122, R128). -/
def Params.base (c : Params) (s : Fin 12) : Nat := c.baseNum[s]

/-- `TL_ADDR[op]` (R8): the Total-Level address of an operator of voice slot 0. -/
def Params.tl (c : Params) : Operator → Byte
  | .op1 => c.tlAddr[0]
  | .op2 => c.tlAddr[1]
  | .op3 => c.tlAddr[2]
  | .op4 => c.tlAddr[3]

end Sys2Proof

namespace Sys2Proof.Machine

/-- `port(index) = 0 if index < 3 else 1` (R22). -/
def portOf (index : BitVec 3) : Port := if index.toNat < 3 then 0 else 1

/-- `offset(index) = index mod 3` (R22). -/
def offsetOf (index : BitVec 3) : BitVec 2 := BitVec.ofNat 2 (index.toNat % 3)

/-- `keyOffset(index) = offset | (port << 2)` (R22). -/
def keyOffsetOf (index : BitVec 3) : BitVec 3 :=
  (offsetOf index).setWidth 3 ||| (portOf index).setWidth 3 <<< 2

/-- The index a handle stands for: a slot's own position (R26, R150). -/
def indexOf (i : Fin 6) : BitVec 3 := BitVec.ofNat 3 i.val

/-- A base address plus a voice slot: "the only addressing mode" (R67). -/
def slotAddress (base : Byte) (slot : BitVec 2) : Byte := base + slot.setWidth 8

/-- `0xA4 + offset` (R67). -/
def freqHiAddress (slot : BitVec 2) : Byte := slotAddress freqHiBase slot

/-- `0xA0 + offset` (R67). -/
def freqLoAddress (slot : BitVec 2) : Byte := slotAddress freqLoBase slot

/-- `TL_ADDR[op] + n` (R188). -/
def tlAddress (c : Params) (op : Operator) (slot : BitVec 2) : Byte := slotAddress (c.tl op) slot

/-- A per-operator parameter address `xxxxxxnn` (R99). -/
def opparamAddress (group : BitVec 6) (slot : BitVec 2) : Byte := group ++ slot

/-- The data `00bbbfff` of a frequency-high write (R99, R34). -/
def fnumHiData (block fnumHi : BitVec 3) : Byte := 0#2 ++ block ++ fnumHi

/-- Key-on data `0xF0 | keyOffset` (R185). -/
def keyOnData (key : BitVec 3) : Byte := keyAllOps ||| key.setWidth 8

/-- Key-off data: the `keyOffset`, top nibble zero (R192). -/
def keyOffData (key : BitVec 3) : Byte := key.setWidth 8

/-- `att = (100 - value) mod 256` (R187): above 100 it wraps (D16, log 5). -/
def attenuation (value : Velocity) : Byte := velRef - value.setWidth 8

/-- `AUDIBLE(ALG)` in ascending order (R189). -/
def audible (alg : Fin 8) : List Operator :=
  if alg.val < 4 then [.op4]
  else if alg.val = 4 then [.op2, .op4]
  else if alg.val < 7 then [.op2, .op3, .op4]
  else [.op1, .op2, .op3, .op4]

/-- `octaveIndex = noteIndex / 12` (R123). -/
def octaveIndex (n : Note) : Nat := n.toNat / semitones

/-- `semitone = noteIndex mod 12` (R123), an index into the 12-entry table. -/
def semitone (n : Note) : Fin 12 := ⟨n.toNat % semitones, Nat.mod_lt _ (by decide)⟩

/-- `highByte = ((fnum >> 8) & 0x7) | ((block & 0x7) << 3)` (R127). -/
def packHigh (fnum block : Nat) : Byte :=
  BitVec.ofNat 8 (((fnum >>> 8) &&& 0x7) ||| ((block &&& 0x7) <<< 3))

/-- `lowByte = fnum & 0xFF` (R127). -/
def packLow (fnum : Nat) : Byte := BitVec.ofNat 8 (fnum &&& 0xFF)

end Sys2Proof.Machine

namespace Sys2Proof

open Machine

/-! ### Which operand values a class of R99 has, shared by WellFormed and the decoder -/

/-- A voice slot within a port, "never 11" (R99, R22). -/
def slotOk (slot : BitVec 2) : Bool := slot != 3#2

/-- A `keyOffset` the block produces: 0, 1, 2, 4, 5, 6 (R22, R100). -/
def keyOk (key : BitVec 3) : Bool := slotOk (key.extractLsb' 0 2)

/-- The twelve Total-Level places of a port: address, operator, voice slot (R188). -/
def tlSites (c : Params) : List (Byte × Operator × BitVec 2) :=
  [Operator.op1, .op2, .op3, .op4].flatMap fun op =>
    [0#2, 1#2, 2#2].map fun n => (tlAddress c op n, op, n)

/-- The operator and slot whose Total-Level register stands at an address, if any (R99 row `W_TL`). -/
def tlSiteAt (c : Params) (a : Byte) : Option (Operator × BitVec 2) :=
  ((tlSites c).find? fun site => site.1 == a).map fun site => site.2

/-- "address in 0x30..0x9F" (R99 row `W_OPPARAM`). -/
def opparamRange (a : Byte) : Bool := decide (0x30 ≤ a.toNat ∧ a.toNat ≤ 0x9F)

end Sys2Proof
end

