-- ==== Sys2Proof/Syntax.lean ====
section
/-! DEFINITION. The operations of the block, one constructor per row of spec/opcode_table.json: four of
format H (host commands), eleven of format B (bus-write classes of R99), seven of format I (internal, R90). -/

namespace Sys2Proof

/-- The command set of R3, the bus-write classes of R99 and the internal operations of R3. Bits a row
ignores (R95) are no operands. -/
inductive Instr where
  /-- `INIT`, format H, `op = 0` (R196). -/
  | init
  /-- `KEY_ON note, vel`, format H, `op = 1` (R186). -/
  | keyOn (note : Note) (vel : Velocity)
  /-- `KEY_OFF note`, format H, `op = 2` (R193). -/
  | keyOff (note : Note)
  /-- The reserved command code, format H, `op = 3` (R200). -/
  | reservedOp3
  /-- `W_FNUM_HI`: `p 101001nn 00bbbfff` (R99, R183). -/
  | wFnumHi (port : Port) (slot : BitVec 2) (block : BitVec 3) (fnumHi : BitVec 3)
  /-- `W_FNUM_LO`: `p 101000nn ffffffff` (R99, R183). -/
  | wFnumLo (port : Port) (slot : BitVec 2) (fnumLo : Byte)
  /-- `W_KEY_ON`: `P 00101000 11110kkk`, `P = KEY_PORT` (R99, R185). -/
  | wKeyOn (key : BitVec 3)
  /-- `W_KEY_OFF`: `P 00101000 00000kkk`, `P = KEY_PORT` (R99, R192). -/
  | wKeyOff (key : BitVec 3)
  /-- `W_TL`: `p TTTTTTTT aaaaaaaa`, `T = TL_ADDR[op] + nn` (R99, R188). -/
  | wTl (port : Port) (op : Operator) (slot : BitVec 2) (att : Byte)
  /-- `W_LFO`: `? 00100010 dddddddd` (R99, R34). -/
  | wLfo (port : Port) (data : Byte)
  /-- `W_MODE`: `? 00100111 dddddddd` (R99, R34). -/
  | wMode (port : Port) (data : Byte)
  /-- `W_DAC`: `? 00101011 dddddddd` (R99, R34). -/
  | wDac (port : Port) (data : Byte)
  /-- `W_OPPARAM`: `p xxxxxxnn dddddddd`, address in 0x30..0x9F (R99, R34). -/
  | wOpparam (port : Port) (group : BitVec 6) (slot : BitVec 2) (data : Byte)
  /-- `W_FB_ALG`: `p 101100nn dddddddd` (R99, R34). -/
  | wFbAlg (port : Port) (slot : BitVec 2) (data : Byte)
  /-- `W_PAN`: `p 101101nn dddddddd` (R99, R34). -/
  | wPan (port : Port) (slot : BitVec 2) (data : Byte)
  /-- `ENCODE(noteIndex)`, internal (R120). -/
  | encode (noteIndex : Note)
  /-- `ALLOCATE(note, velocity)`, internal (R141). -/
  | allocate (note : Note) (velocity : Velocity)
  /-- `RELEASE(note)`, internal (R144). -/
  | release (note : Note)
  /-- `POOL_RESET`, internal (R147). -/
  | poolReset
  /-- `REGWRITE(address, data, port)`, internal (R160). -/
  | regwrite (address : Byte) (data : Byte) (port : Port)
  /-- `VELOCITY(value)`, internal (R188). -/
  | velocity (value : Velocity)
  /-- `VOICE_PROGRAM`, internal (R195). -/
  | voiceProgram
  deriving DecidableEq, Repr

end Sys2Proof
end

