-- ==== Sys2Proof/WellFormed.lean ====
section
/-! DEFINITION. Which operands a row of the opcode table admits (R99, R100), and the constraints of R9 on
the parameters. -/

namespace Sys2Proof

open Machine

/-- The operands each row admits. A note above 131 and a velocity above 100 are legal operands (R100): they
have outcomes, not ill-formed encodings. -/
def wellFormed (c : Params) : Instr → Bool
  | .init => true
  | .keyOn _ _ => true
  | .keyOff _ => true
  | .reservedOp3 => true
  | .wFnumHi _ slot _ _ => slotOk slot
  | .wFnumLo _ slot _ => slotOk slot
  | .wKeyOn key => keyOk key
  | .wKeyOff key => keyOk key
  | .wTl _ _ slot _ => slotOk slot
  | .wLfo _ _ => true
  | .wMode _ _ => true
  | .wDac _ _ => true
  | .wOpparam _ group slot _ =>
    slotOk slot && opparamRange (opparamAddress group slot) &&
      (tlSiteAt c (opparamAddress group slot)).isNone
  | .wFbAlg _ slot _ => slotOk slot
  | .wPan _ slot _ => slotOk slot
  | .encode _ => true
  | .allocate _ _ => true
  | .release _ => true
  | .poolReset => true
  | .regwrite _ _ _ => true
  | .velocity _ => true
  | .voiceProgram => true

/-- R9 (a), (d), (e), (f): the table is of non-negative rationals, the four `TL_ADDR` are distinct and
`TL_ADDR[p] + 2 <= 0xFF`, `T_SETTLE > 0`. (`0 <= ALG <= 7` holds by its type.) -/
abbrev Params.Legal (c : Params) : Prop :=
  0 < c.baseDen ∧ 0 < c.tSettle ∧ c.tlAddr.toList.Nodup ∧ ∀ a ∈ c.tlAddr.toList, a.toNat + 2 ≤ 0xFF

/-- R9 (b)'s premise: `BASE_FREQ[s] < 2048` for every `s`. -/
abbrev Params.EntriesBelowLimit (c : Params) : Prop := ∀ s : Fin 12, c.base s < fnumLimit * c.baseDen

/-- R9 (c)'s premise: `BASE_FREQ` is non-decreasing and `BASE_FREQ[11] <= 2 * BASE_FREQ[0]`. -/
abbrev Params.TableAscending (c : Params) : Prop :=
  (∀ s t : Fin 12, s ≤ t → c.base s ≤ c.base t) ∧ c.base 11 ≤ 2 * c.base 0

/-- The Total-Level addresses are distinct sub-groups of the per-operator registers: in 0x30..0x9C and a
multiple of 4. DEDUCED from R34's "register groups that ... hold four sub-groups 4 apart" (log 17); the
bus-write classes of R99 then do not overlap. -/
abbrev Params.TlGrouped (c : Params) : Prop :=
  c.tlAddr.toList.Nodup ∧ ∀ a ∈ c.tlAddr.toList, 0x30 ≤ a.toNat ∧ a.toNat ≤ 0x9C ∧ a.toNat % 4 = 0

end Sys2Proof
end

