-- ==== Sys2Proof/Decode.lean ====
section
/-! DEFINITION. The decoder of the host command word (R91, R94, R98), total on every 17-bit word and on every
list of bytes; the decoder of bus writes into the classes of R99; and the encoder of both formats. -/

namespace Sys2Proof

open Machine

/-- Why a list of bytes is no command word. -/
inductive DecodeError where
  /-- Fewer than the three bytes that hold a 17-bit word. -/
  | tooFewBytes
  /-- A bit above bit 16 is set: `cmd_word` has no such bit (R91). -/
  | bitsAboveWord
  deriving DecidableEq, Repr

/-- Why a register write belongs to no class of R99. -/
inductive BusDecodeError where
  /-- A write to 0x28 on a port other than `KEY_PORT`. -/
  | notKeyPort
  /-- A write to 0x28 whose data is neither `11110kkk` nor `00000kkk`, or whose `kkk` is 3 or 7 (R100). -/
  | keyData
  /-- A per-voice group with voice slot 3 (R100). -/
  | voiceSlot3
  /-- A frequency-high write whose data bits 7:6 are not 0 (R34). -/
  | fnumHiData
  /-- An address outside the documented subset (R34, U13). -/
  | undocumented
  deriving DecidableEq, Repr

/-- `op = cmd_word[16:15]` (R91). -/
def opField (w : CommandWord) : BitVec 2 := w.extractLsb' 15 2
/-- `note = cmd_word[14:7]` (R91). -/
def noteField (w : CommandWord) : Note := w.extractLsb' 7 8
/-- `vel = cmd_word[6:0]` (R91). -/
def velField (w : CommandWord) : Velocity := w.extractLsb' 0 7

/-- The command a host command word stands for: selected by `cmd_word[16:15]` alone (R94, R98); bits a
command ignores do not matter (R95). -/
def decodeHost (w : CommandWord) : Instr :=
  if opField w = 0 then .init
  else if opField w = 1 then .keyOn (noteField w) (velField w)
  else if opField w = 2 then .keyOff (noteField w)
  else .reservedOp3

/-- The command in a list of bytes, and the bytes after it. DESIGN CHOICE (log 15): the spec has no byte
form of `cmd_word`; here it stands in three bytes, the least significant first. -/
def decode : List Byte → Except DecodeError (Instr × List Byte)
  | b0 :: b1 :: b2 :: rest =>
    if b2.toNat < 2 then .ok (decodeHost ((b2 ++ b1 ++ b0).setWidth 17), rest)
    else .error .bitsAboveWord
  | _ => .error .tooFewBytes

/-- The three bytes of a word, the least significant first (log 15). -/
def wordBytes (w : Nat) : List Byte :=
  [BitVec.ofNat 8 w, BitVec.ofNat 8 (w >>> 8), BitVec.ofNat 8 (w >>> 16)]

/-- The command the decoder reads from an instruction whose bits are `w`, in the opcode table's numbering.
It reads the HOST PORT's words, format H: a format-B word is a bus transaction, which never stands there
(R90, R96; log 15). -/
def decodeTableWord (nbits w : Nat) : Option Instr :=
  let v := w % 2 ^ nbits
  if v < 2 ^ 24 then
    match decode (wordBytes v) with
    | .ok (i, _) => some i
    | .error _ => none
  else none

/-- `port` of a bus word (R96). -/
def busPort (w : BusWord) : Port := w.extractLsb' 16 1
/-- `address` of a bus word (R96). -/
def busAddress (w : BusWord) : Byte := w.extractLsb' 8 8
/-- `data` of a bus word (R96). -/
def busData (w : BusWord) : Byte := w.extractLsb' 0 8

/-- The class of a write to register 0x28: told by the data's top nibble (R99). -/
def decodeKey (c : Params) (p : Port) (d : Byte) : Except BusDecodeError Instr :=
  if p ≠ c.keyPort then .error .notKeyPort
  else if keyOk (d.extractLsb' 0 3) = false then .error .keyData
  else if d.extractLsb' 3 5 = 0b11110#5 then .ok (.wKeyOn (d.extractLsb' 0 3))
  else if d.extractLsb' 3 5 = 0#5 then .ok (.wKeyOff (d.extractLsb' 0 3))
  else .error .keyData

/-- The class of a write to a per-voice group, by the six address bits above the voice slot (R99). -/
def decodeVoice (p : Port) (a d : Byte) : Except BusDecodeError Instr :=
  let slot := a.extractLsb' 0 2
  let group := a.extractLsb' 2 6
  let isOpparam := opparamRange a
  if isOpparam = false ∧ group ≠ 0b101001#6 ∧ group ≠ 0b101000#6 ∧ group ≠ 0b101100#6 ∧ group ≠ 0b101101#6 then
    .error .undocumented
  else if slotOk slot = false then .error .voiceSlot3
  else if isOpparam then .ok (.wOpparam p group slot d)
  else if group = 0b101001#6 then
    if d.extractLsb' 6 2 = 0#2 then .ok (.wFnumHi p slot (d.extractLsb' 3 3) (d.extractLsb' 0 3))
    else .error .fnumHiData
  else if group = 0b101000#6 then .ok (.wFnumLo p slot d)
  else if group = 0b101100#6 then .ok (.wFbAlg p slot d)
  else .ok (.wPan p slot d)

/-- The class of a bus write (R99), for a configuration: `KEY_PORT` and `TL_ADDR` are parameters. -/
def decodeBus (c : Params) (w : BusWord) : Except BusDecodeError Instr :=
  let p := busPort w
  let a := busAddress w
  let d := busData w
  if a = keyReg then decodeKey c p d
  else if a = lfoReg then .ok (.wLfo p d)
  else if a = modeReg then .ok (.wMode p d)
  else if a = dacReg then .ok (.wDac p d)
  else
    match tlSiteAt c a with
    | some (op, n) => .ok (.wTl p op n d)
    | none => decodeVoice p a d

/-- A format-B word from the triple it stands for (R96). -/
def busWord (w : RegWrite) : BusWord := w.port ++ w.address ++ w.data

/-- A format-H word from its fields (R91). -/
def commandWord (op : BitVec 2) (note : Note) (vel : Velocity) : CommandWord := op ++ note ++ vel

/-- The register write a bus-write class stands for (R99). Rows of the other formats stand for none. -/
def busWrite (c : Params) : Instr → Option RegWrite
  | .wFnumHi p slot block fnumHi => some ⟨freqHiAddress slot, fnumHiData block fnumHi, p⟩
  | .wFnumLo p slot fnumLo => some ⟨freqLoAddress slot, fnumLo, p⟩
  | .wKeyOn key => some ⟨keyReg, keyOnData key, c.keyPort⟩
  | .wKeyOff key => some ⟨keyReg, keyOffData key, c.keyPort⟩
  | .wTl p op slot att => some ⟨tlAddress c op slot, att, p⟩
  | .wLfo p d => some ⟨lfoReg, d, p⟩
  | .wMode p d => some ⟨modeReg, d, p⟩
  | .wDac p d => some ⟨dacReg, d, p⟩
  | .wOpparam p group slot d => some ⟨opparamAddress group slot, d, p⟩
  | .wFbAlg p slot d => some ⟨slotAddress fbAlgBase slot, d, p⟩
  | .wPan p slot d => some ⟨slotAddress panBase slot, d, p⟩
  | .init | .keyOn _ _ | .keyOff _ | .reservedOp3 => none
  | .encode _ | .allocate _ _ | .release _ | .poolReset | .regwrite _ _ _ | .velocity _ | .voiceProgram => none

/-- The word of a host command, its ignored bits 0 (R94, R95). Rows of the other formats have none. -/
def hostWord : Instr → Option CommandWord
  | .init => some (commandWord 0 0 0)
  | .keyOn note vel => some (commandWord 1 note vel)
  | .keyOff note => some (commandWord 2 note 0)
  | .reservedOp3 => some (commandWord 3 0 0)
  | .wFnumHi _ _ _ _ | .wFnumLo _ _ _ | .wKeyOn _ | .wKeyOff _ | .wTl _ _ _ _ | .wLfo _ _ | .wMode _ _ => none
  | .wDac _ _ | .wOpparam _ _ _ _ | .wFbAlg _ _ _ | .wPan _ _ _ => none
  | .encode _ | .allocate _ _ | .release _ | .poolReset | .regwrite _ _ _ | .velocity _ | .voiceProgram => none

/-- The word of a row: format H for a host command, format B for a bus-write class; an internal operation
has no bit pattern (R90). -/
def encode (c : Params) (i : Instr) : Option (BitVec 17) := (hostWord i).or ((busWrite c i).map busWord)

end Sys2Proof
end

