-- ==== Sys2Proof/Machine/State.lean ====
section
/-! DEFINITION. The whole state of the block (R20 to R33): the pool, the flags, the latches, the sequencer,
the pins, the transaction latch, the observer state of R14, the host's side of the port, and the parameters.
`State.reset` is R36. -/

namespace Sys2Proof.Machine

/-- The outcome codes of R211 by name. -/
inductive Status where
  | ok | resourceExhausted | notFound | rangeError | notInitialised | illegalCommand
  deriving DecidableEq, Repr

/-- A slot of the pool (R21). `none` is `UNSET` (R23, D13). `port`, `offset` and `keyOffset` are functions of
`index` (R22) and are not stored. -/
structure Slot where
  active : Bool
  index : Option (BitVec 3)
  note : Option Note
  frequencyHigh : Option Byte
  frequencyLow : Option Byte
  velocity : Option Velocity
  deriving DecidableEq, Repr

/-- The inactive sentinel state: "all fields reset to sentinel unset" (R23, R25). -/
def Slot.unset : Slot := ⟨false, none, none, none, none, none⟩

/-- The channel pool: "exactly 6 Channel slots" (R26). -/
abbrev Pool := Vector Slot 6

/-- The pool right after reset or `POOL_RESET` (R36, R147). -/
def Pool.empty : Pool := Vector.replicate 6 Slot.unset

/-- The stored fields of a slot a rule may read (R21, R23). -/
inductive SlotField where
  | index | note | frequencyHigh | frequencyLow
  deriving DecidableEq, Repr

/-- The logical value of a control line (R30). -/
inductive Line where
  | asserted | deasserted
  deriving DecidableEq, Repr

/-- The pin drivers, by logical value (R30). -/
structure Pins where
  reset : Line
  cs : Line
  wr : Line
  rd : Line
  dsel : Line
  psel : Port
  dbus : Byte
  dbusDriven : Bool
  deriving DecidableEq, Repr

/-- The pins in the idle state of reset, with the chip's reset line as given (R36). The value of the data bus
while it is not driven is unspecified: 0x00 is a DESIGN CHOICE (log 8). -/
def Pins.idle (reset : Line) : Pins :=
  ⟨reset, .deasserted, .deasserted, .deasserted, .deasserted, 0, 0, false⟩

/-- The events of the pin trace (R14, R170). `strobe` is `CS` and `WR` together, one event (R171, D23);
`settle` is `wait >= atLeast` (R11). -/
inductive PinEvent where
  | psel (p : Port)
  | dsel (l : Line)
  | dbus (b : Byte)
  | strobe (l : Line)
  | settle (atLeast : Nat)
  deriving DecidableEq, Repr

/-- `tx_phase` with the transaction latch (R31): "Outside a write tx_phase = NONE and the latch holds no
value". -/
inductive Tx where
  | none
  | addr (w : RegWrite)
  | data (w : RegWrite)
  | recover (w : RegWrite)
  deriving DecidableEq, Repr

/-- The sequencer states of R29; `DONE` stands with the outcome the table gives it. -/
inductive Seq where
  | idle | decode | onCheck | onAlloc | onFhi | onFlo | onVel | onKey | offCheck | offRel | offKey | initRun
  | done (st : Status)
  deriving DecidableEq, Repr

/-- The value an internal operation returned to DP: `r` of the pseudocode of R186 and R193 (R120, R141,
R144, R150; log 12). -/
inductive OpResult where
  /-- DP holds no returned value. -/
  | none
  /-- `(highByte, lowByte)` of `ENCODE`. -/
  | bytes (high low : Byte)
  /-- `RangeError(noteIndex)` of `ENCODE`. -/
  | rangeError (noteIndex : Note)
  /-- `Handle(i)` of `ALLOCATE`. -/
  | handle (i : Fin 6)
  /-- `NoFreeChannel` of `ALLOCATE`. -/
  | noFreeChannel
  /-- `KeyOffset(k)` of `RELEASE`. -/
  | keyOffset (k : BitVec 3)
  /-- `NotFound` of `RELEASE`. -/
  | notFound
  deriving DecidableEq, Repr

/-- What `ALLOCATE` does (R141, R142): a handle with the pool it leaves, or nothing written. -/
inductive AllocResult where
  | handle (i : Fin 6) (pool : Pool)
  | noFreeChannel
  /-- `ENCODE` raised RangeError before any field was written; `KEY_ON` never gets here (R121, R182). -/
  | rangeError
  deriving DecidableEq, Repr

/-- What `RELEASE` does (R144, R145): the `keyOffset` with the pool it leaves, or nothing written. -/
inductive ReleaseResult where
  | keyOffset (k : BitVec 3) (pool : Pool)
  | notFound
  deriving DecidableEq, Repr

/-- The operands latched at acceptance (R93, R73). -/
structure CmdLatch where
  op : BitVec 2
  note : Note
  vel : Velocity
  deriving DecidableEq, Repr

/-- What the host does at the port: presents a command word (`cmd_valid` with `cmd_word`, R92), or drives
the block's reset input to a level (R226, R240). -/
inductive HostEvent where
  | command (w : CommandWord)
  | resetInput (l : Line)
  deriving DecidableEq, Repr

/-- The chip register image: (port * 256 + address, last byte written), addresses rising (R33). An unlisted
location has no value: its contents are unspecified (R36, U14; log 9). -/
abbrev Memory := List Host.Cell

/-- The state of the block. -/
structure State where
  /-- The parameters (R8). Not state of the hardware: no step changes them (R20; log 2). -/
  cfg : Params
  /-- What the host will present, in order; the head stands on the port (R92, R102; log 14). -/
  inputs : List HostEvent
  /-- The operands of the command being run (R93). -/
  cmd : CmdLatch
  /-- `ch[0..5]` (R21, R26). -/
  pool : Pool
  /-- `INIT` has completed since reset (R27, R197). -/
  inited : Bool
  /-- A command is running (R27, R93). -/
  busy : Bool
  /-- How far the running command has got (R29). -/
  seq : Seq
  /-- DP's copy of what the last internal operation returned (log 12). -/
  result : OpResult
  /-- `rsp_status` (R28, R211). -/
  rspStatus : BitVec 3
  /-- `rsp_index` (R28). -/
  rspIndex : BitVec 3
  /-- `rsp_keyoff` (R28). -/
  rspKeyoff : BitVec 3
  /-- `rsp_valid`: a command has just ended (R92, R93; log 10). -/
  rspValid : Bool
  /-- The pin drivers (R30). -/
  pins : Pins
  /-- The register write in flight (R31). -/
  tx : Tx
  /-- Observer state: the chip register image (R33). -/
  chip : Memory
  /-- Observer state: the bus log, oldest write first (R14, R33). -/
  log : List RegWrite
  /-- Observer state: the pin trace, oldest event first (R14, R170). -/
  trace : List PinEvent
  deriving DecidableEq, Repr

/-- The values of R36 for a block with parameters `c`, with the chip's reset line as given and a host that
has yet to present `inputs`. -/
def State.afterReset (c : Params) (resetLine : Line) (inputs : List HostEvent) : State where
  cfg := c
  inputs := inputs
  cmd := ⟨0, 0, 0⟩
  pool := Pool.empty
  inited := false
  busy := false
  seq := .idle
  result := .none
  rspStatus := 0
  rspIndex := 0
  rspKeyoff := 0
  rspValid := false
  pins := Pins.idle resetLine
  tx := .none
  chip := []
  log := []
  trace := []

/-- The machine right after reset (R36, R242): reset input released, host silent. -/
def State.reset : State := State.afterReset Params.atReset .deasserted []

/-- Why a step stops. No run from reset reaches either: both are SAFE (a claim may become unprovable, none
becomes provable that is false). -/
inductive Fault where
  /-- A rule reads a stored field of a slot that holds `UNSET`: "a model that is asked to read one should
  fault, not return 0" (R23, D13). Raised by `RELEASE`, `KEY_OFF` and the sequencer rows that read a slot, in
  states that break R24 only. Safe. -/
  | unsetField (slot : Fin 6) (field : SlotField)
  /-- A sequencer row of R29 needs the value an internal operation returned and DP holds none. Raised by a
  step in a state where a command is said to be running that no acceptance started. Safe. -/
  | noReturnedValue (row : Seq)
  deriving DecidableEq, Repr

/-- Why an instruction has no meaning. -/
inductive Refusal where
  /-- Raised by `exec`'s arm of an instruction that has no meaning yet; no arm raises it now. Safe. -/
  | notModelled (mnemonic : String)
  deriving DecidableEq, Repr

end Sys2Proof.Machine
end

