-- ==== Sys2Proof/Machine/Flags.lean ====
section
/-! DEFINITION. Flags and outcomes: the block has no arithmetic condition codes (R27); here stand the outcome
codes (R211), the ready flag (R92) and the checks of R219 in their order. -/

namespace Sys2Proof.Machine

/-- The outcome code latched in `rsp_status` (R211, D5). -/
def Status.code : Status → BitVec 3
  | .ok => 0
  | .resourceExhausted => 1
  | .notFound => 2
  | .rangeError => 3
  | .notInitialised => 4
  | .illegalCommand => 5

/-- `cmd_ready = not busy` (R27, R92). -/
def State.cmdReady (s : State) : Bool := !s.busy

/-- `note > 131` (R121, R182, R201). -/
def outOfRange (n : Note) : Bool := decide (noteMax < n.toNat)

/-- The checks of `KEY_ON` that come before the pool is touched: `inited`, then the range (R181, R182, R219,
D10). `none` means that both pass. -/
def keyOnCheck (s : State) (note : Note) : Option Status :=
  if s.inited = false then some .notInitialised
  else if outOfRange note then some .rangeError
  else none

/-- The check of `KEY_OFF` that comes before the pool is touched (R191, R219, D11). -/
def keyOffCheck (s : State) : Option Status :=
  if s.inited = false then some .notInitialised else none

end Sys2Proof.Machine
end

