-- ==== Sys2Proof/Machine/Ops.lean ====
section
/-! DEFINITION. The named operations over the state: the chip register image, the pins, the two-phase
register write (R160), the slots, ending a command (R28, R214), accepting one (R93), and hardware reset. -/

namespace Sys2Proof.Machine

/-! ### The chip register image (R33) -/

/-- The key of a location `(port, address)` in the image. -/
def chipKey (p : Port) (a : Byte) : Nat := p.toNat * 256 + a.toNat

/-- The byte last written at a key, none where nothing was (R33, U14). -/
def Memory.read : Memory → Nat → Option Byte
  | [], _ => none
  | (k, b) :: rest, a => if k = a then some b else Memory.read rest a

/-- The image after one byte is written, in canonical form. -/
def Memory.write : Memory → Nat → Byte → Memory
  | [], a, b => [(a, b)]
  | (k, x) :: rest, a, b =>
    if a < k then (a, b) :: (k, x) :: rest
    else if a = k then (a, b) :: rest
    else (k, x) :: Memory.write rest a b

/-- The canonical form: keys strictly rising and inside the two ports of 256 registers. -/
def Memory.wf : Memory → Bool
  | [] => true
  | (k, _) :: rest => decide (k < 512) && rest.all (fun cell => decide (k < cell.1)) && Memory.wf rest

/-- `chip[port][address] <- data` (R33). -/
def chipWrite (m : Memory) (w : RegWrite) : Memory := Memory.write m (chipKey w.port w.address) w.data

/-- The byte of `chip[port][address]`, if one has been written. -/
def State.chipAt (s : State) (p : Port) (a : Byte) : Option Byte := Memory.read s.chip (chipKey p a)

/-! ### Pins (R30, R170) -/

/-- What an event does to the drivers (R170). A wait changes none. -/
def PinEvent.apply : PinEvent → Pins → Pins
  | .psel p, x => { x with psel := p }
  | .dsel l, x => { x with dsel := l }
  | .dbus b, x => { x with dbus := b, dbusDriven := true }
  | .strobe l, x => { x with cs := l, wr := l }
  | .settle _, x => x

/-- `emit`: the events happen on the pins in order and stand in the trace (R11, R14). -/
def emit (es : List PinEvent) (s : State) : State :=
  { s with pins := es.foldl (fun x e => e.apply x) s.pins, trace := s.trace ++ es }

/-- The electrical level of a line that is active-low: asserted is 0 (R30). -/
def activeLow : Line → BitVec 1
  | .asserted => 0
  | .deasserted => 1

/-- The electrical level of pin A0: `A0_DATA_LEVEL` while data-select is asserted (R30, C3, D22). -/
def a0Level (c : Params) (x : Pins) : BitVec 1 :=
  match x.dsel with
  | .asserted => c.a0DataLevel
  | .deasserted => ~~~c.a0DataLevel

/-! ### The register write (R160 to R172) -/

/-- Steps 1 to 4, the address phase: e1 to e6 of R170. -/
def addressPhase (t : Nat) (w : RegWrite) : List PinEvent :=
  [.psel w.port, .dsel .deasserted, .dbus w.address, .strobe .asserted, .settle t, .strobe .deasserted]

/-- Steps 5 and 6, the data phase: e7 to e11 of R170. -/
def dataPhase (t : Nat) (w : RegWrite) : List PinEvent :=
  [.dsel .asserted, .dbus w.data, .strobe .asserted, .settle t, .strobe .deasserted]

/-- Step 7, recovery: e12 and e13 of R170. -/
def recoverPhase (t : Nat) : List PinEvent := [.dsel .deasserted, .settle t]

/-- The thirteen events of one write (R170). -/
def writeTrace (t : Nat) (w : RegWrite) : List PinEvent := addressPhase t w ++ dataPhase t w ++ recoverPhase t

/-- The write in flight goes through its current phase (R160). At the end of step 7 the write is complete:
it enters the bus log and the image (R168, R172). With no write in flight nothing happens. -/
def busAdvance (s : State) : State :=
  match s.tx with
  | .none => s
  | .addr w => { emit (addressPhase s.cfg.tSettle w) s with tx := .data w }
  | .data w => { emit (dataPhase s.cfg.tSettle w) s with tx := .recover w }
  | .recover w =>
    { emit (recoverPhase s.cfg.tSettle) s with tx := .none, log := s.log ++ [w], chip := chipWrite s.chip w }

/-- "once a write transaction begins it always runs to completion" (R169): the write in flight, if any, runs
through the phases it has left. -/
def finishWrite (s : State) : State := busAdvance (busAdvance (busAdvance s))

/-- `REGWRITE` (R160): `tx_phase <- ADDR` with the triple latched, then the three phases. A write starts only
when none is in flight (R169), so one that is in flight is completed first (log 16). -/
def regWrite (w : RegWrite) (s : State) : State := finishWrite { finishWrite s with tx := .addr w }

/-- Register writes one after the other, in list order (R69). -/
def regWrites (ws : List RegWrite) (s : State) : State := ws.foldl (fun s w => regWrite w s) s

/-! ### Slots (R21, R23) -/

/-- The slot at a position of the pool (R26). -/
def Pool.slot (pool : Pool) (i : Fin 6) : Slot := pool[i]

/-- Reading a stored field of slot `i`: `UNSET` has no value to read (R23, D13). -/
def readField {α : Type} (i : Fin 6) (field : SlotField) : Option α → Except Fault α
  | some a => .ok a
  | none => .error (.unsetField i field)

/-- The pool with slot `i` replaced. -/
def Pool.put (pool : Pool) (i : Fin 6) (slot : Slot) : Pool := pool.set i slot

/-! ### Ending, accepting, reset -/

/-- The end of a command (R28, R29 row `DONE`, R93): the latches are written, `rsp_valid` is raised,
`busy <- 0`, `seq <- IDLE`; no handle outlives the command (R150). -/
def finish (st : Status) (index keyoff : BitVec 3) (s : State) : State :=
  { s with
    rspStatus := st.code, rspIndex := index, rspKeyoff := keyoff, rspValid := true
    busy := false, seq := .idle, result := .none }

/-- `raise` (R11, R214): the command ends with the code, `rsp_index` and `rsp_keyoff` take 0, and nothing
else changes. This is the block's whole exception entry (R220); there is no return (R221). -/
def raise (st : Status) (s : State) : State := finish st 0 0 s

/-- Acceptance (R93): the word leaves the port, its fields are latched, `busy <- 1`, and DP is in `DECODE`. -/
def accept (op : BitVec 2) (note : Note) (vel : Velocity) (rest : List HostEvent) (s : State) : State :=
  { s with
    inputs := rest, cmd := ⟨op, note, vel⟩, busy := true, seq := .decode, result := .none, rspValid := false }

/-- The reset input goes to a level (R36, R240, R241): asserting it abandons whatever runs and gives every
piece of state its reset value, with `RESET` asserted; releasing it deasserts `RESET` (and a `rsp_valid` pulse
is over, as at every step, log 10). -/
def hardwareReset (l : Line) (rest : List HostEvent) (s : State) : State :=
  match l with
  | .asserted => State.afterReset s.cfg .asserted rest
  | .deasserted => { s with inputs := rest, rspValid := false, pins := { s.pins with reset := .deasserted } }

end Sys2Proof.Machine
end

