-- ==== Sys2Proof/Machine/Encoder.lean ====
section
/-! DEFINITION. The frequency encoder (40_frequency_encoder.md): `ENCODE`. -/

namespace Sys2Proof.Machine

/-- R124: the scaled frequency `F0 = BASE_FREQ[semitone] * 2^(octaveIndex - 5)` as an exact fraction, here
`(N[semitone] * 2^octaveIndex) / (D * 2^5)` (R128; log 4). -/
def scaledFrequency (c : Params) (n : Note) : Nat × Nat :=
  (c.base (semitone n) * 2 ^ octaveIndex n, c.baseDen * 2 ^ octaveBias)

/-- R125: while the frequency `num / den` is at or above 2048, it is halved (its denominator doubled) and
`block` incremented. `fuel` bounds the halvings; `halvingFuel` is enough for every frequency. -/
def normalise : (fuel num den block : Nat) → Nat × Nat × Nat
  | 0, num, den, block => (num, den, block)
  | fuel + 1, num, den, block =>
    if fnumLimit * den ≤ num then normalise fuel num (2 * den) (block + 1) else (num, den, block)

/-- A bound on the halvings of R125: `F0 / 2048 + 1`. -/
def halvingFuel (num den : Nat) : Nat := num / (fnumLimit * den) + 1

/-- R124 to R126: `(fnum, block)` of a note, `fnum` the floor of the normalised frequency, `block` unmasked. -/
def frequencyCode (c : Params) (n : Note) : Nat × Nat :=
  let f := scaledFrequency c n
  let r := normalise (halvingFuel f.1 f.2) f.1 f.2 blockInit
  (r.1 / r.2.1, r.2.2)

/-- `ENCODE` (R120): the two register bytes, or nothing for a note above 131 (R121). -/
def encodeNote (c : Params) (n : Note) : Option (Byte × Byte) :=
  if outOfRange n then none
  else
    let code := frequencyCode c n
    some (packHigh code.1 code.2, packLow code.1)

/-- `ENCODE(noteIndex)` by itself: no state of the block is written (R120); the bytes, or RangeError and no
bytes (U1), are returned to DP. -/
def execEncode (noteIndex : Note) (s : State) : Host.Outcome State Fault Refusal :=
  match encodeNote s.cfg noteIndex with
  | some (high, low) => .next { s with result := .bytes high low }
  | none => .next { s with result := .rangeError noteIndex }

end Sys2Proof.Machine
end

