-- ==== Sys2Proof/Machine/Allocator.lean ====
section
/-! DEFINITION. The channel allocator (41_channel_allocator.md): `ALLOCATE`, `RELEASE`, `POOL_RESET`. None of
them touches the bus (R61, R140). -/

namespace Sys2Proof.Machine

/-- "fixed index order 0..5" (R141). -/
def scanOrder : List (Fin 6) := [0, 1, 2, 3, 4, 5]

/-- The lowest inactive slot, if any: it looks at the `active` bits only (R141, R143). -/
def firstFree (pool : Pool) : Option (Fin 6) := scanOrder.find? fun i => !(pool.slot i).active

/-- The six fields `ALLOCATE` writes, together (R141). -/
def allocatedSlot (i : Fin 6) (note : Note) (velocity : Velocity) (high low : Byte) : Slot where
  active := true
  index := some (indexOf i)
  note := some note
  frequencyHigh := some high
  frequencyLow := some low
  velocity := some velocity

/-- `ALLOCATE` (R141, R142). `ENCODE` runs only when a slot is free; if it raised, nothing would be written
(R11). -/
def allocate (c : Params) (note : Note) (velocity : Velocity) (pool : Pool) : AllocResult :=
  match firstFree pool with
  | none => .noFreeChannel
  | some i =>
    match encodeNote c note with
    | none => .rangeError
    | some (high, low) => .handle i (Pool.put pool i (allocatedSlot i note velocity high low))

/-- The first active slot, in the order of the list, whose stored note matches (R144). Inactive slots are
skipped without reading their note. -/
def scanNote (note : Note) (pool : Pool) : List (Fin 6) → Except Fault (Option (Fin 6))
  | [] => .ok none
  | i :: rest =>
    if (pool.slot i).active then
      match readField i .note (pool.slot i).note with
      | .error f => .error f
      | .ok m => if m = note then .ok (some i) else scanNote note pool rest
    else scanNote note pool rest

/-- `RELEASE` (R144, R145): the `keyOffset` is read before the slot is reset. First match, not all (R146). -/
def release (note : Note) (pool : Pool) : Except Fault ReleaseResult :=
  match scanNote note pool scanOrder with
  | .error f => .error f
  | .ok none => .ok .notFound
  | .ok (some i) =>
    match readField i .index (pool.slot i).index with
    | .error f => .error f
    | .ok index => .ok (.keyOffset (keyOffsetOf index) (Pool.put pool i Slot.unset))

/-- `POOL_RESET` (R147): every slot to the sentinel. -/
def poolReset (s : State) : State := { s with pool := Pool.empty }

/-- `ALLOCATE(note, velocity)` by itself (R141): its result is returned to DP. -/
def execAllocate (note : Note) (velocity : Velocity) (s : State) : Host.Outcome State Fault Refusal :=
  match allocate s.cfg note velocity s.pool with
  | .handle i pool => .next { s with pool := pool, result := .handle i }
  | .noFreeChannel => .next { s with result := .noFreeChannel }
  | .rangeError => .next { s with result := .rangeError note }

/-- `RELEASE(note)` by itself (R144): its result is returned to DP. -/
def execRelease (note : Note) (s : State) : Host.Outcome State Fault Refusal :=
  match release note s.pool with
  | .error f => .fault f
  | .ok (.keyOffset k pool) => .next { s with pool := pool, result := .keyOffset k }
  | .ok .notFound => .next { s with result := .notFound }

/-- `POOL_RESET` by itself (R147): no result, no register write. -/
def execPoolReset (s : State) : Host.Outcome State Fault Refusal := .next (poolReset s)

end Sys2Proof.Machine
end

