-- ==== Sys2Proof/Machine/Bus.lean ====
section
/-! DEFINITION. The register bus (42_register_bus.md): `REGWRITE`, and one register write of each class of
R99. A class performed by itself is the write whose bit pattern R99 gives (log 17). -/

namespace Sys2Proof.Machine

/-- `REGWRITE(address, data, port)` by itself (R160). -/
def execRegwrite (address data : Byte) (port : Port) (s : State) : Host.Outcome State Fault Refusal :=
  .next (regWrite ⟨address, data, port⟩ s)

/-- `W_FNUM_HI`: `p 101001nn 00bbbfff` (R99, R183). -/
def execWFnumHi (port : Port) (slot : BitVec 2) (block fnumHi : BitVec 3) (s : State) :
    Host.Outcome State Fault Refusal :=
  .next (regWrite ⟨freqHiAddress slot, fnumHiData block fnumHi, port⟩ s)

/-- `W_FNUM_LO`: `p 101000nn ffffffff` (R99, R183). -/
def execWFnumLo (port : Port) (slot : BitVec 2) (fnumLo : Byte) (s : State) : Host.Outcome State Fault Refusal :=
  .next (regWrite ⟨freqLoAddress slot, fnumLo, port⟩ s)

/-- `W_KEY_ON`: `P 00101000 11110kkk` with `P = KEY_PORT` (R99, R185). -/
def execWKeyOn (key : BitVec 3) (s : State) : Host.Outcome State Fault Refusal :=
  .next (regWrite ⟨keyReg, keyOnData key, s.cfg.keyPort⟩ s)

/-- `W_KEY_OFF`: `P 00101000 00000kkk` with `P = KEY_PORT` (R99, R192). -/
def execWKeyOff (key : BitVec 3) (s : State) : Host.Outcome State Fault Refusal :=
  .next (regWrite ⟨keyReg, keyOffData key, s.cfg.keyPort⟩ s)

/-- `W_TL`: the Total-Level register of an operator of a voice (R99, R188). -/
def execWTl (port : Port) (op : Operator) (slot : BitVec 2) (att : Byte) (s : State) :
    Host.Outcome State Fault Refusal :=
  .next (regWrite ⟨tlAddress s.cfg op slot, att, port⟩ s)

/-- `W_LFO`: register 0x22 (R99, R34). -/
def execWLfo (port : Port) (data : Byte) (s : State) : Host.Outcome State Fault Refusal :=
  .next (regWrite ⟨lfoReg, data, port⟩ s)

/-- `W_MODE`: register 0x27 (R99, R34). -/
def execWMode (port : Port) (data : Byte) (s : State) : Host.Outcome State Fault Refusal :=
  .next (regWrite ⟨modeReg, data, port⟩ s)

/-- `W_DAC`: register 0x2B (R99, R34). -/
def execWDac (port : Port) (data : Byte) (s : State) : Host.Outcome State Fault Refusal :=
  .next (regWrite ⟨dacReg, data, port⟩ s)

/-- `W_OPPARAM`: a per-operator parameter of a voice (R99, R34). -/
def execWOpparam (port : Port) (group : BitVec 6) (slot : BitVec 2) (data : Byte) (s : State) :
    Host.Outcome State Fault Refusal :=
  .next (regWrite ⟨opparamAddress group slot, data, port⟩ s)

/-- `W_FB_ALG`: feedback and algorithm of a voice (R99, R34). -/
def execWFbAlg (port : Port) (slot : BitVec 2) (data : Byte) (s : State) : Host.Outcome State Fault Refusal :=
  .next (regWrite ⟨slotAddress fbAlgBase slot, data, port⟩ s)

/-- `W_PAN`: pan of a voice (R99, R34). -/
def execWPan (port : Port) (slot : BitVec 2) (data : Byte) (s : State) : Host.Outcome State Fault Refusal :=
  .next (regWrite ⟨slotAddress panBase slot, data, port⟩ s)

end Sys2Proof.Machine
end

