-- ==== Sys2Proof/Machine/Composite.lean ====
section
/-! DEFINITION. The composite internal operations (43_composite_ops.md): `VELOCITY` and `VOICE_PROGRAM`. -/

namespace Sys2Proof.Machine

/-- The writes of `VELOCITY`, in order: port outermost, then voice slot, then operator ascending (R188, D18). -/
def velocityWrites (c : Params) (value : Velocity) : List RegWrite :=
  [0#1, 1#1].flatMap fun p =>
    [0#2, 1#2, 2#2].flatMap fun n =>
      (audible c.alg).map fun op => ⟨tlAddress c op n, attenuation value, p⟩

/-- `VELOCITY(value)` (R188): it writes every voice, whichever slot is sounding (R190). -/
def applyVelocity (value : Velocity) (s : State) : State := regWrites (velocityWrites s.cfg value) s

/-- `VOICE_PROGRAM` (R195): the parameter list, in list order. -/
def playVoiceProgram (s : State) : State := regWrites s.cfg.voiceProgram s

/-- `VELOCITY(value)` by itself (R188). -/
def execVelocity (value : Velocity) (s : State) : Host.Outcome State Fault Refusal :=
  .next (applyVelocity value s)

/-- `VOICE_PROGRAM` by itself (R195). -/
def execVoiceProgram (s : State) : Host.Outcome State Fault Refusal := .next (playVoiceProgram s)

end Sys2Proof.Machine
end

