-- ==== Sys2Proof/Machine/Commands.lean ====
section
/-! DEFINITION. The host commands (43_composite_ops.md), each one indivisible step (R12): `INIT`, `KEY_ON`,
`KEY_OFF` and the reserved code. -/

namespace Sys2Proof.Machine

/-- The frequency-high write of slot `i` (R183). -/
def freqHiWrite (i : Fin 6) (high : Byte) : RegWrite :=
  ⟨freqHiAddress (offsetOf (indexOf i)), high, portOf (indexOf i)⟩

/-- The frequency-low write of slot `i` (R183). -/
def freqLoWrite (i : Fin 6) (low : Byte) : RegWrite :=
  ⟨freqLoAddress (offsetOf (indexOf i)), low, portOf (indexOf i)⟩

/-- The key-on write of a voice (R185). -/
def keyOnWrite (c : Params) (key : BitVec 3) : RegWrite := ⟨keyReg, keyOnData key, c.keyPort⟩

/-- The key-off write of a voice (R192). -/
def keyOffWrite (c : Params) (key : BitVec 3) : RegWrite := ⟨keyReg, keyOffData key, c.keyPort⟩

/-- `INIT` (R196): pool reset, voice program, then `inited <- 1` (R197); always OK. -/
def execInit (s : State) : Host.Outcome State Fault Refusal :=
  .next (finish .ok 0 0 { playVoiceProgram (poolReset s) with inited := true })

/-- `KEY_ON` (R186): the checks, `ALLOCATE`, the two frequency writes with the bytes the slot stores (R183),
`VELOCITY` with the command's own operand (R184), and the key write last (R185). -/
def execKeyOn (note : Note) (vel : Velocity) (s : State) : Host.Outcome State Fault Refusal :=
  match keyOnCheck s note with
  | some st => .next (raise st s)
  | none =>
    match allocate s.cfg note vel s.pool with
    | .noFreeChannel => .next (raise .resourceExhausted s)
    | .rangeError => .next (raise .rangeError s)
    | .handle i pool =>
      match readField i .frequencyHigh (pool.slot i).frequencyHigh, readField i .frequencyLow (pool.slot i).frequencyLow with
      | .error f, _ => .fault f
      | .ok _, .error f => .fault f
      | .ok high, .ok low =>
        let key := keyOffsetOf (indexOf i)
        let s := regWrite (freqHiWrite i high) { s with pool := pool }
        let s := regWrite (freqLoWrite i low) s
        let s := applyVelocity vel s
        let s := regWrite (keyOnWrite s.cfg key) s
        .next (finish .ok (indexOf i) key s)

/-- `KEY_OFF` (R193): the check, `RELEASE`, and the one write of the returned `keyOffset` (R192). -/
def execKeyOff (note : Note) (s : State) : Host.Outcome State Fault Refusal :=
  match keyOffCheck s with
  | some st => .next (raise st s)
  | none =>
    match release note s.pool with
    | .error f => .fault f
    | .ok .notFound => .next (raise .notFound s)
    | .ok (.keyOffset k pool) =>
      .next (finish .ok 0 k (regWrite (keyOffWrite s.cfg k) { s with pool := pool }))

/-- The reserved command code (R200): ILLEGAL_COMMAND, whatever `inited` is. -/
def execReservedOp3 (s : State) : Host.Outcome State Fault Refusal := .next (raise .illegalCommand s)

end Sys2Proof.Machine
end

