-- ==== Sys2Proof/Machine/Sequencer.lean ====
section
/-! DEFINITION. The sequencer of R29, row by row: the optional refinement of D28 in which a running command
goes through its named states. A command accepted by `step` runs as one indivisible step (R12); these rows say
what a state in the middle of a command does next, and that the two views agree is an obligation. -/

namespace Sys2Proof.Machine

/-- Row `DECODE` of R29: the op is examined; the reserved code is found before `inited` is looked at (R200). -/
def seqAfterDecode (op : BitVec 2) : Seq :=
  if op = 0 then .initRun else if op = 1 then .onCheck else if op = 2 then .offCheck else .done .illegalCommand

/-- The handle DP holds, for the rows that use it (R150). -/
def heldHandle (s : State) : Except Fault (Fin 6) :=
  match s.result with
  | .handle i => .ok i
  | .none | .bytes _ _ | .rangeError _ | .noFreeChannel | .keyOffset _ | .notFound =>
    .error (.noReturnedValue s.seq)

/-- The `keyOffset` DP holds, for row `OFF_KEY`. -/
def heldKeyOffset (s : State) : Except Fault (BitVec 3) :=
  match s.result with
  | .keyOffset k => .ok k
  | .none | .bytes _ _ | .rangeError _ | .noFreeChannel | .handle _ | .notFound =>
    .error (.noReturnedValue s.seq)

/-- Row `ON_ALLOC`. -/
def rowOnAlloc (s : State) : State :=
  match allocate s.cfg s.cmd.note s.cmd.vel s.pool with
  | .handle i pool => { s with pool := pool, result := .handle i, seq := .onFhi }
  | .noFreeChannel => { s with seq := .done .resourceExhausted }
  | .rangeError => { s with seq := .done .rangeError }

/-- Row `ON_FHI`. -/
def rowOnFhi (s : State) : Host.Outcome State Fault Refusal :=
  match heldHandle s with
  | .error f => .fault f
  | .ok i =>
    match readField i .frequencyHigh (s.pool.slot i).frequencyHigh with
    | .error f => .fault f
    | .ok high => .next { regWrite (freqHiWrite i high) s with seq := .onFlo }

/-- Row `ON_FLO`. -/
def rowOnFlo (s : State) : Host.Outcome State Fault Refusal :=
  match heldHandle s with
  | .error f => .fault f
  | .ok i =>
    match readField i .frequencyLow (s.pool.slot i).frequencyLow with
    | .error f => .fault f
    | .ok low => .next { regWrite (freqLoWrite i low) s with seq := .onVel }

/-- Row `ON_KEY`. -/
def rowOnKey (s : State) : Host.Outcome State Fault Refusal :=
  match heldHandle s with
  | .error f => .fault f
  | .ok i => .next { regWrite (keyOnWrite s.cfg (keyOffsetOf (indexOf i))) s with seq := .done .ok }

/-- Row `OFF_REL`. -/
def rowOffRel (s : State) : Host.Outcome State Fault Refusal :=
  match release s.cmd.note s.pool with
  | .error f => .fault f
  | .ok .notFound => .next { s with seq := .done .notFound }
  | .ok (.keyOffset k pool) => .next { s with pool := pool, result := .keyOffset k, seq := .offKey }

/-- Row `OFF_KEY`. -/
def rowOffKey (s : State) : Host.Outcome State Fault Refusal :=
  match heldKeyOffset s with
  | .error f => .fault f
  | .ok k => .next { regWrite (keyOffWrite s.cfg k) s with seq := .done .ok }

/-- Row `DONE` (R28): `rsp_index` on `KEY_ON` with OK, `rsp_keyoff` on `KEY_ON` and `KEY_OFF` with OK,
otherwise 0. -/
def rowDone (st : Status) (s : State) : State :=
  match st, s.result with
  | .ok, .handle i => finish .ok (indexOf i) (keyOffsetOf (indexOf i)) s
  | .ok, .keyOffset k => finish .ok 0 k s
  | _, _ => finish st 0 0 s

/-- One row of R29: what happens in the current state, and the next state. -/
def advance (s : State) : Host.Outcome State Fault Refusal :=
  match s.seq with
  | .idle => .next s
  | .decode => .next { s with seq := seqAfterDecode s.cmd.op }
  | .onCheck =>
    match keyOnCheck s s.cmd.note with
    | some st => .next { s with seq := .done st }
    | none => .next { s with seq := .onAlloc }
  | .onAlloc => .next (rowOnAlloc s)
  | .onFhi => rowOnFhi s
  | .onFlo => rowOnFlo s
  | .onVel => .next { applyVelocity s.cmd.vel s with seq := .onKey }
  | .onKey => rowOnKey s
  | .offCheck =>
    match keyOffCheck s with
    | some st => .next { s with seq := .done st }
    | none => .next { s with seq := .offRel }
  | .offRel => rowOffRel s
  | .offKey => rowOffKey s
  | .initRun => .next { playVoiceProgram (poolReset s) with inited := true, seq := .done .ok }
  | .done st => .next (rowDone st s)

/-- At most `n` rows, stopping in `IDLE` (R29: "seq advances only forward"). -/
def advanceRows : Nat → State → Host.Outcome State Fault Refusal
  | 0, s => .next s
  | n + 1, s =>
    if s.seq = .idle then .next s
    else
      match advance s with
      | .next t => advanceRows n t
      | .fault f => .fault f
      | .refused r => .refused r

end Sys2Proof.Machine
end

