-- ==== Sys2Proof/Machine/Dispatch.lean ====
section
/-! DEFINITION. The dispatch: one arm per row of spec/opcode_table.json, each one call of its meaning. -/

namespace Sys2Proof.Machine

/-- What an operation of the block does. A host command is one indivisible step (R12); a bus-write class is
one register write (R99); an internal operation does its part and returns its result to DP (R90). -/
def exec (i : Instr) (s : State) : Host.Outcome State Fault Refusal :=
  match i with
  | .init => Sys2Proof.Machine.execInit s
  | .keyOn note vel => Sys2Proof.Machine.execKeyOn note vel s
  | .keyOff note => Sys2Proof.Machine.execKeyOff note s
  | .reservedOp3 => Sys2Proof.Machine.execReservedOp3 s
  | .wFnumHi port slot block fnumHi => Sys2Proof.Machine.execWFnumHi port slot block fnumHi s
  | .wFnumLo port slot fnumLo => Sys2Proof.Machine.execWFnumLo port slot fnumLo s
  | .wKeyOn key => Sys2Proof.Machine.execWKeyOn key s
  | .wKeyOff key => Sys2Proof.Machine.execWKeyOff key s
  | .wTl port op slot att => Sys2Proof.Machine.execWTl port op slot att s
  | .wLfo port data => Sys2Proof.Machine.execWLfo port data s
  | .wMode port data => Sys2Proof.Machine.execWMode port data s
  | .wDac port data => Sys2Proof.Machine.execWDac port data s
  | .wOpparam port group slot data => Sys2Proof.Machine.execWOpparam port group slot data s
  | .wFbAlg port slot data => Sys2Proof.Machine.execWFbAlg port slot data s
  | .wPan port slot data => Sys2Proof.Machine.execWPan port slot data s
  | .encode noteIndex => Sys2Proof.Machine.execEncode noteIndex s
  | .allocate note velocity => Sys2Proof.Machine.execAllocate note velocity s
  | .release note => Sys2Proof.Machine.execRelease note s
  | .poolReset => Sys2Proof.Machine.execPoolReset s
  | .regwrite address data port => Sys2Proof.Machine.execRegwrite address data port s
  | .velocity value => Sys2Proof.Machine.execVelocity value s
  | .voiceProgram => Sys2Proof.Machine.execVoiceProgram s

end Sys2Proof.Machine
end

