-- ==== Sys2Proof/Machine/Port.lean ====
section
/-! DEFINITION. The command port and the reset input: which of them, the write in flight, the running command or
idling a step attends to. -/

namespace Sys2Proof.Machine

/-- What stands at the command port of an idle block with no write in flight (R92, R93).
* In reset nothing is accepted: a command presented then has no effect (R229; log 14).
* A command word is accepted and runs to its end (R93, R12).
* With nothing there the block waits (R36); the `rsp_valid` pulse is over (log 10). -/
def idleStep (s : State) : Host.Outcome State Fault Refusal :=
  match s.inputs with
  | .command w :: rest =>
    if s.pins.reset = .asserted then .next { s with inputs := rest, rspValid := false }
    else exec (decodeHost w) (accept (opField w) (noteField w) (velField w) rest s)
  | .resetInput _ :: _ => .next { s with rspValid := false }
  | [] => .next { s with rspValid := false }

/-- A step with the reset input's level left alone: a write in flight goes on first (R169), then a running
command goes on by a row of R29; a command on the port is not accepted while `busy = 1` (R93) and stays there. -/
def runningStep (s : State) : Host.Outcome State Fault Refusal :=
  if s.tx ≠ .none then .next (busAdvance s)
  else if s.busy then advance s
  else idleStep s

/-- One step of the block: the reset input acts at once, whatever is in flight (R240). -/
def blockStep (s : State) : Host.Outcome State Fault Refusal :=
  match s.inputs with
  | .resetInput l :: rest => .next (hardwareReset l rest s)
  | .command _ :: _ => runningStep s
  | [] => runningStep s

/-- The command word `w` on the port, in front of what the host will present later, and the block ready to accept
it: no write in flight, `busy = 0`, `seq = IDLE`, the reset input released (R93; log 21). -/
def present (w : CommandWord) (s : State) : State :=
  { s with
    inputs := .command w :: s.inputs
    busy := false, seq := .idle, tx := .none, pins := { s.pins with reset := .deasserted } }

end Sys2Proof.Machine
end

