-- ==== Sys2Proof/Machine/Step.lean ====
section
/-! DEFINITION. One step of the block, and how an instruction is laid at the command port (`withFetchWord`). -/

namespace Sys2Proof.Machine

/-- One step of the block (R12, R93, R240). -/
def step (s : State) : Host.Outcome State Fault Refusal := blockStep s

/-- `s` with the low 17 bits of `w` on the command port, ready to be accepted (log 21). -/
def State.withFetchWord (s : State) (nbits w : Nat) : State := present (BitVec.ofNat 17 (w % 2 ^ nbits)) s

end Sys2Proof.Machine
end

