-- ==== Sys2Proof/Safety.lean ====
section
/-! DEFINITION. The terms claims are stated in: the invariants of the pool (R24, R26, R149), of the observer
state (R33, R170), of the pins (R169, R173), what a list of register writes does (R172), and which parts of a
state two states share. -/

namespace Sys2Proof.Machine

/-! ### The pool (R24, R26, R149) -/

/-- All five stored optional fields are set. -/
abbrev Slot.AllSet (sl : Slot) : Prop :=
  sl.index.isSome ∧ sl.note.isSome ∧ sl.frequencyHigh.isSome ∧ sl.frequencyLow.isSome ∧ sl.velocity.isSome

/-- All five stored optional fields are `UNSET`. -/
abbrev Slot.AllUnset (sl : Slot) : Prop :=
  sl.index = none ∧ sl.note = none ∧ sl.frequencyHigh = none ∧ sl.frequencyLow = none ∧ sl.velocity = none

/-- R24: `active = 1` exactly when all five fields are set, `active = 0` exactly when all five are `UNSET`. -/
abbrev Pool.Consistent (pool : Pool) : Prop :=
  ∀ i : Fin 6, ((pool.slot i).active = true ↔ (pool.slot i).AllSet) ∧ ((pool.slot i).active = false ↔ (pool.slot i).AllUnset)

/-- R26, R149 item 1: `ch[i].index` is `UNSET` or `i`. -/
abbrev Pool.Indexed (pool : Pool) : Prop :=
  ∀ i : Fin 6, (pool.slot i).index = none ∨ (pool.slot i).index = some (BitVec.ofNat 3 i.val)

/-- R149 item 5: an active slot holds a note up to 131 with its two bytes of `ENCODE`. -/
def Pool.Encoded (c : Params) (pool : Pool) : Prop :=
  ∀ i : Fin 6, (pool.slot i).active = true →
    ∃ n high low, (pool.slot i).note = some n ∧ n.toNat ≤ 131 ∧ encodeNote c n = some (high, low) ∧
      (pool.slot i).frequencyHigh = some high ∧ (pool.slot i).frequencyLow = some low

/-- The invariant of the pool: R149 items 1, 2 and 5. -/
def State.PoolInv (s : State) : Prop :=
  s.pool.Consistent ∧ s.pool.Indexed ∧ s.pool.Encoded s.cfg

/-- Slot `i` is the lowest inactive one (R141, R149 item 4). -/
abbrev Pool.LowestFree (pool : Pool) (i : Fin 6) : Prop :=
  (pool.slot i).active = false ∧ ∀ j : Fin 6, j < i → (pool.slot j).active = true

/-- All six slots are active (R142). -/
abbrev Pool.Full (pool : Pool) : Prop := ∀ i : Fin 6, (pool.slot i).active = true

/-- Slot `i` is active and holds `note`. -/
abbrev Pool.Holds (pool : Pool) (i : Fin 6) (note : Note) : Prop :=
  (pool.slot i).active = true ∧ (pool.slot i).note = some note

/-- Slot `i` is the first active one that holds `note` (R144, R146). -/
abbrev Pool.FirstHolds (pool : Pool) (i : Fin 6) (note : Note) : Prop :=
  pool.Holds i note ∧ ∀ j : Fin 6, j < i → ¬ pool.Holds j note

/-- The number of active slots (R149 item 3). -/
def Pool.activeCount (pool : Pool) : Nat := (scanOrder.filter fun i => (pool.slot i).active).length

/-! ### What a list of register writes leaves (R167, R172) -/

/-- The pins after the writes: idle, with the port and the data of the last one (R167, R173). -/
def pinsAfter (ws : List RegWrite) (x : Pins) : Pins :=
  match ws.getLast? with
  | none => x
  | some w =>
    { x with
      cs := .deasserted, wr := .deasserted, dsel := .deasserted
      psel := w.port, dbus := w.data, dbusDriven := true }

/-- The byte the last of the writes to `(p, a)` puts there, none if none of them goes there (R33). -/
def lastWritten (ws : List RegWrite) (p : Port) (a : Byte) : Option Byte :=
  (ws.reverse.find? fun w => w.port == p && w.address == a).map RegWrite.data

/-- From `s` to `t` exactly the register writes `ws` were issued, in order: the bus log, the pin trace, the
pins and every location of the image, one by one, say so, and no write is left in flight. -/
def Wrote (ws : List RegWrite) (s t : State) : Prop :=
  t.log = s.log ++ ws ∧ t.trace = s.trace ++ ws.flatMap (writeTrace s.cfg.tSettle) ∧
    t.pins = pinsAfter ws s.pins ∧ t.tx = .none ∧
    ∀ p a, t.chipAt p a = (lastWritten ws p a).or (s.chipAt p a)

/-! ### Parts two states share -/

/-- The parameters, the host's side of the port and the latched operands are the same. -/
abbrev SameFront (s t : State) : Prop := t.cfg = s.cfg ∧ t.inputs = s.inputs ∧ t.cmd = s.cmd

/-- Everything at and beyond the pins is the same: pins, write in flight, image, bus log, pin trace. -/
abbrev SameBus (s t : State) : Prop :=
  t.pins = s.pins ∧ t.tx = s.tx ∧ t.chip = s.chip ∧ t.log = s.log ∧ t.trace = s.trace

/-- The response latches and `rsp_valid` are the same. -/
abbrev SameResponse (s t : State) : Prop :=
  t.rspStatus = s.rspStatus ∧ t.rspIndex = s.rspIndex ∧ t.rspKeyoff = s.rspKeyoff ∧ t.rspValid = s.rspValid

/-- `inited`, `busy`, `seq` and DP's returned value are the same. -/
abbrev SameControl (s t : State) : Prop :=
  t.inited = s.inited ∧ t.busy = s.busy ∧ t.seq = s.seq ∧ t.result = s.result

/-- The command has ended with these latches: `busy = 0`, `seq = IDLE`, no value held (R28, R93, R214). -/
abbrev Ended (st : Status) (index keyoff : BitVec 3) (t : State) : Prop :=
  t.rspStatus = st.code ∧ t.rspIndex = index ∧ t.rspKeyoff = keyoff ∧ t.rspValid = true ∧
    t.busy = false ∧ t.seq = .idle ∧ t.result = .none

/-- A command refused with an outcome (R214): the code and two zeros are latched, `busy` and `seq` are as after
any command, and nothing else of the block has changed. (`rsp_valid` is R93's; `result` is the model's own
field, log 12.) -/
def refused (st : Status) (s : State) : State :=
  { s with
    rspStatus := st.code, rspIndex := 0, rspKeyoff := 0, rspValid := true
    busy := false, seq := .idle, result := .none }

/-! ### Observer state and pins -/

/-- The image is what the bus log last wrote (R33). -/
def State.ImageFollowsLog (s : State) : Prop := s.chip = s.log.foldl chipWrite []

/-- The events of a write that is still in flight: those of the phases it has been through (R31, R170). -/
def partialTrace (t : Nat) : Tx → List PinEvent
  | .none => []
  | .addr _ => []
  | .data w => addressPhase t w
  | .recover w => addressPhase t w ++ dataPhase t w

/-- The pin trace is the thirteen events of each completed write, in order, then those of the write in
flight (R69, R170). -/
def State.TraceFollowsLog (s : State) : Prop :=
  s.trace = s.log.flatMap (writeTrace s.cfg.tSettle) ++ partialTrace s.cfg.tSettle s.tx

/-- Between writes the strobes and data-select are deasserted, and the read-strobe always is (R167, R173). -/
abbrev State.PinsQuiet (s : State) : Prop :=
  s.pins.rd = .deasserted ∧ s.pins.cs = .deasserted ∧ s.pins.wr = .deasserted ∧
    (s.tx = .none → s.pins.dsel = .deasserted)

/-- Nothing is in flight: what every state between two commands looks like (R29, R31). -/
abbrev State.AtRest (s : State) : Prop := s.tx = .none ∧ s.busy = false ∧ s.seq = .idle ∧ s.result = .none

/-- R169 on a list of events, with the strobes at level `l` before it: `PSEL`, `DSEL` and `DBUS` change only
while `CS` and `WR` are deasserted, and the strobes alternate. -/
def disciplined : Line → List PinEvent → Bool
  | _, [] => true
  | l, .strobe l' :: rest => decide (l ≠ l') && disciplined l' rest
  | l, .settle _ :: rest => disciplined l rest
  | l, .psel _ :: rest => decide (l = .deasserted) && disciplined l rest
  | l, .dsel _ :: rest => decide (l = .deasserted) && disciplined l rest
  | l, .dbus _ :: rest => decide (l = .deasserted) && disciplined l rest

/-- The time a list of events takes at least: the sum of its waits (R174). -/
def leastTime : List PinEvent → Nat
  | [] => 0
  | .settle t :: rest => t + leastTime rest
  | .strobe _ :: rest => leastTime rest
  | .psel _ :: rest => leastTime rest
  | .dsel _ :: rest => leastTime rest
  | .dbus _ :: rest => leastTime rest

/-! ### The spec's own formulas, written a second time from its tables

Statements are made in these, not in the operand assembly the meanings use. -/

/-- `port` of a position, table of R22. -/
def Spec.port (i : Fin 6) : Port := if i.val < 3 then 0 else 1

/-- `offset` of a position, table of R22. -/
def Spec.offset (i : Fin 6) : Nat := i.val % 3

/-- `keyOffset` of a position, table of R22: 0, 1, 2, 4, 5, 6. -/
def Spec.keyOffset (i : Fin 6) : Nat := if i.val < 3 then i.val else i.val + 1

/-- `AUDIBLE(ALG)`, table of R189. -/
def Spec.audible : Fin 8 → List Operator
  | 0 | 1 | 2 | 3 => [.op4]
  | 4 => [.op2, .op4]
  | 5 | 6 => [.op2, .op3, .op4]
  | 7 => [.op1, .op2, .op3, .op4]

/-- The writes of `VELOCITY(value)` in the order of R188: `TL_ADDR[op] + n` takes `(100 - value) mod 256`. -/
def Spec.velocityWrites (c : Params) (value : Velocity) : List RegWrite :=
  [0#1, 1#1].flatMap fun p =>
    [0#8, 1#8, 2#8].flatMap fun n =>
      (Spec.audible c.alg).map fun op => ⟨c.tl op + n, BitVec.ofInt 8 (100 - (value.toNat : Int)), p⟩

/-- The writes of a `KEY_ON` that has been given slot `i` with the bytes `(high, low)` (R183 to R186). -/
def Spec.keyOnWrites (c : Params) (i : Fin 6) (high low : Byte) (vel : Velocity) : List RegWrite :=
  [⟨BitVec.ofNat 8 (0xA4 + Spec.offset i), high, Spec.port i⟩,
    ⟨BitVec.ofNat 8 (0xA0 + Spec.offset i), low, Spec.port i⟩] ++
  Spec.velocityWrites c vel ++ [⟨0x28, BitVec.ofNat 8 (0xF0 + Spec.keyOffset i), c.keyPort⟩]

/-- `F0 = BASE_FREQ[semitone] * 2^(octaveIndex - 5)`, an exact rational (R123, R124, R129). -/
def Spec.frequency (c : Params) (n : Note) : ℚ :=
  (c.base ⟨n.toNat % 12, Nat.mod_lt _ (by decide)⟩ : ℚ) / c.baseDen * (2 : ℚ) ^ (((n.toNat / 12 : Nat) : Int) - 5)

/-- `(fnum, block)` of a note: `k` is the least number of halvings that brings `F0` below 2048,
`fnum = floor(F0 / 2^k)`, `block = 2 + k` (R125, R126). -/
def Spec.IsCode (c : Params) (n : Note) (fnum block : Nat) : Prop :=
  ∃ k : Nat, Spec.frequency c n / 2 ^ k < 2048 ∧ (∀ j < k, 2048 ≤ Spec.frequency c n / 2 ^ j) ∧
    fnum = ⌊Spec.frequency c n / 2 ^ k⌋₊ ∧ block = 2 + k

end Sys2Proof.Machine
end

