-- ==== Sys2Proof/Certificates/Slice0/Obligations.lean ====
section
/-! DEFINITION. The statements for the provers, grouped as the spec's files are. `Wrote`, `Ended`, `SameFront`
and the `Spec` formulas are in Safety.lean. -/

open Sys2Proof Sys2Proof.Machine

/-! ### Encodings (30_encoding.md) -/

/-- Words written out in R98 and V317, and bus words of V320 packed by R96, decode to what they stand for. -/
def Obligations.SpecWordsDecode : Prop :=
  decodeHost 0x00000 = .init ∧ decodeHost 0x07FFF = .init ∧ decodeHost 0x09E64 = .keyOn 60 100 ∧
    decodeHost 0x0C1FF = .keyOn 131 127 ∧ decodeHost 0x0C264 = .keyOn 132 100 ∧
    decodeHost 0x11E00 = .keyOff 60 ∧ decodeHost 0x11E7F = .keyOff 60 ∧ decodeHost 0x18000 = .reservedOp3 ∧
    decodeHost 0x1FFFF = .reservedOp3 ∧
    ∀ alg t ws a0, let c := defaultParams alg t ws a0
      decodeBus c (0#1 ++ 0xA4#8 ++ 0x11#8) = .ok (.wFnumHi 0 0 2 1) ∧
      decodeBus c (0#1 ++ 0xA0#8 ++ 0x05#8) = .ok (.wFnumLo 0 0 5) ∧
      decodeBus c (1#1 ++ 0x4D#8 ++ 0x24#8) = .ok (.wTl 1 .op4 1 0x24) ∧
      decodeBus c (0#1 ++ 0x28#8 ++ 0xF4#8) = .ok (.wKeyOn 4) ∧
      decodeBus c (0#1 ++ 0x28#8 ++ 0x06#8) = .ok (.wKeyOff 6)

/-- R91, R94, R95, R98: the command is selected by the mask `0x18000` alone, its operands are the fields of
R91, and bits a command ignores do not matter. -/
def Obligations.HostCommandSelectedByOp : Prop :=
  ∀ w : CommandWord,
    (w &&& 0x18000#17 = 0x00000#17 → decodeHost w = .init) ∧
    (w &&& 0x18000#17 = 0x08000#17 →
      ∃ note vel, decodeHost w = .keyOn note vel ∧ note.toNat = w.toNat / 128 % 256 ∧ vel.toNat = w.toNat % 128) ∧
    (w &&& 0x18000#17 = 0x10000#17 → ∃ note, decodeHost w = .keyOff note ∧ note.toNat = w.toNat / 128 % 256) ∧
    (w &&& 0x18000#17 = 0x18000#17 → decodeHost w = .reservedOp3)

/-- Decode and encode agree, for every row that has an encoding and every operand it admits. The premise on
`TL_ADDR` is the model's reading of R34 (log 17). -/
def Obligations.DecodeInvertsEncode : Prop :=
  ∀ (c : Params) (i : Instr) (w : BitVec 17), c.TlGrouped → wellFormed c i = true → encode c i = some w →
    ((∃ v, hostWord i = some v) → decodeHost w = i) ∧ ((∃ v, busWrite c i = some v) → decodeBus c w = .ok i)

/-- The other direction: a bus word that decodes to a class is the word of that class, and its operands are
ones the class admits. Where the Total-Level addresses are grouped as R34 shows them (the model's reading, log 17),
no word belongs to two classes, nor to one class at two operands. -/
def Obligations.EncodeInvertsBusDecode : Prop :=
  (∀ (c : Params) (i : Instr) (w : BusWord), decodeBus c w = .ok i → wellFormed c i = true ∧ encode c i = some w) ∧
  ∀ (c : Params) (i j : Instr) (v : RegWrite), c.TlGrouped → wellFormed c i = true → wellFormed c j = true →
    busWrite c i = some v → busWrite c j = some v → i = j

/-- Command words in bytes, the model's layout (log 15): the three bytes of a 17-bit word decode to its
command, a word with a bit above bit 16 is refused by name. -/
def Obligations.BytesDecodeAsTheirWord : Prop :=
  ∀ w : Nat,
    (w < 2 ^ 17 → decode (wordBytes w) = .ok (decodeHost (BitVec.ofNat 17 w), []) ∧
      decodeTableWord 24 w = some (decodeHost (BitVec.ofNat 17 w))) ∧
    (2 ^ 17 ≤ w → w < 2 ^ 24 → decode (wordBytes w) = .error .bitsAboveWord ∧ decodeTableWord 24 w = none)

/-! ### A step (R93, R73, R229, R240) -/

/-- A step runs the decoded instruction: with nothing in flight, the reset input released and a command word
on the port, step is exec of the decoded command at the state acceptance leaves (R93): the word is off the
port, `op`, `note` and `vel` are latched, `busy = 1`. The model's choices in that state: `rsp_valid` is lowered at
acceptance (log 10) and the model's own field `result` emptied (log 12). The second part is about `withFetchWord`,
which is the model's own (log 21). -/
def Obligations.StepRunsThePresentedCommand : Prop :=
  (∀ (s : State) (w : CommandWord) (rest : List HostEvent),
    s.tx = .none → s.busy = false → s.pins.reset = .deasserted → s.inputs = .command w :: rest →
      step s = exec (decodeHost w)
        { s with
          inputs := rest, cmd := ⟨w.extractLsb' 15 2, w.extractLsb' 7 8, w.extractLsb' 0 7⟩
          busy := true, seq := .decode, result := .none, rspValid := false }) ∧
  ∀ (s : State) (nbits w : Nat), w < 2 ^ nbits → w < 2 ^ 17 →
    step (s.withFetchWord nbits w) = exec (decodeHost (BitVec.ofNat 17 w))
      { s with
        cmd := ⟨(BitVec.ofNat 17 w).extractLsb' 15 2, (BitVec.ofNat 17 w).extractLsb' 7 8,
          (BitVec.ofNat 17 w).extractLsb' 0 7⟩
        busy := true, seq := .decode, result := .none, rspValid := false, tx := .none
        pins := { s.pins with reset := .deasserted } }

/-- R36, R242 ("the block waits for a command"): an idle block with nothing on the port changes nothing but
the end of the `rsp_valid` pulse (log 10). -/
def Obligations.IdleBlockWaits : Prop :=
  ∀ s : State, s.tx = .none → s.busy = false → s.inputs = [] → step s = .next { s with rspValid := false }

/-- R73, R93: while a command runs, the command port has no effect on it: with anything else there, or nothing, the
step is the same (a level of the reset input is no command, R240). That a word presented meanwhile stays on the port,
one of the two things R93 lets the host do, is the model's choice (log 14). -/
def Obligations.BusyBlockIgnoresThePort : Prop :=
  ∀ (s t : State) (w : CommandWord) (rest : List HostEvent),
    s.busy = true → s.inputs = .command w :: rest → step s = .next t →
      t.inputs = .command w :: rest ∧ t.cmd = s.cmd ∧
        ∀ port : List HostEvent, (∀ l later, port ≠ .resetInput l :: later) →
          step { s with inputs := port } = .next { t with inputs := port }

/-- R169, R31: whatever command is on the port, a write in flight goes on first, through its next phase, and a
completed one enters the bus log (R168). That a step of the model is one whole phase of the write is the model's
choice (logs 1 and 16). -/
def Obligations.WriteInFlightRunsOn : Prop :=
  ∀ (s : State) (w : RegWrite), (∀ l rest, s.inputs ≠ .resetInput l :: rest) →
    (s.tx = .addr w → ∃ t, step s = .next t ∧ t.tx = .data w ∧ t.log = s.log) ∧
    (s.tx = .data w → ∃ t, step s = .next t ∧ t.tx = .recover w ∧ t.log = s.log) ∧
    (s.tx = .recover w → ∃ t, step s = .next t ∧ t.tx = .none ∧ t.log = s.log ++ [w] ∧
      t.chipAt w.port w.address = some w.data)

/-! ### Reset (R36, R240 to R242) -/

/-- R242: the state after reset; the block waits for a command. (The chip register image is unspecified there:
nothing is stated of it.) -/
def Obligations.StateAfterReset : Prop :=
  (∀ i : Fin 6, State.reset.pool.slot i = ⟨false, none, none, none, none, none⟩) ∧
    State.reset.inited = false ∧ State.reset.busy = false ∧ State.reset.seq = .idle ∧
    State.reset.rspStatus = 0 ∧ State.reset.rspIndex = 0 ∧ State.reset.rspKeyoff = 0 ∧
    State.reset.pins.cs = .deasserted ∧ State.reset.pins.wr = .deasserted ∧ State.reset.pins.rd = .deasserted ∧
    State.reset.pins.dsel = .deasserted ∧ State.reset.pins.psel = 0 ∧ State.reset.pins.dbusDriven = false ∧
    State.reset.pins.reset = .deasserted ∧ State.reset.tx = .none ∧ State.reset.log = [] ∧
    step State.reset = .next State.reset

/-- R240, R241, R36: from every state, asserting the reset input abandons whatever is in flight and gives every
piece of state R36 lists its reset value, with `RESET` asserted; only the parameters stay. Releasing it, whenever
that happens, deasserts `RESET` and nothing else. R36 leaves the image and the level of the undriven data bus
unspecified: that no location has a value is how the model says so (log 9), and of the bus only that it is not driven
is stated (log 8). The model's choices: the input is the head of the host's list (log 14) and its release, like every
step, ends the `rsp_valid` pulse (log 10). -/
def Obligations.ResetInputActsAtOnce : Prop :=
  (∀ (s : State) (rest : List HostEvent), s.inputs = .resetInput .asserted :: rest →
    ∃ t, step s = .next t ∧ t.inputs = rest ∧ t.cfg = s.cfg ∧
      (∀ i : Fin 6, t.pool.slot i = ⟨false, none, none, none, none, none⟩) ∧
      t.inited = false ∧ t.busy = false ∧ t.seq = .idle ∧ t.tx = .none ∧
      t.rspStatus = 0 ∧ t.rspIndex = 0 ∧ t.rspKeyoff = 0 ∧ t.log = [] ∧ (∀ p a, t.chipAt p a = none) ∧
      t.pins.reset = .asserted ∧ t.pins.cs = .deasserted ∧ t.pins.wr = .deasserted ∧ t.pins.rd = .deasserted ∧
      t.pins.dsel = .deasserted ∧ t.pins.psel = 0 ∧ t.pins.dbusDriven = false) ∧
  ∀ (s : State) (rest : List HostEvent), s.inputs = .resetInput .deasserted :: rest →
    step s = .next { s with inputs := rest, rspValid := false, pins := { s.pins with reset := .deasserted } }

/-- R229, R93: in reset no command is accepted. That a word presented then is dropped, and that the step ends the
`rsp_valid` pulse, are the model's choices (logs 14 and 10). -/
def Obligations.NoCommandInReset : Prop :=
  ∀ (s : State) (w : CommandWord) (rest : List HostEvent), s.tx = .none → s.busy = false →
    s.pins.reset = .asserted → s.inputs = .command w :: rest →
      step s = .next { s with inputs := rest, rspValid := false }

/-! ### The frequency encoder (40_frequency_encoder.md) -/

/-- R120, R123 to R127: `ENCODE` of a legal note completes with the two bytes of the document's algorithm,
over exact rationals, and writes no state of the block (`result` is DP's copy of what it returns, log 12). -/
def Obligations.EncodeFollowsTheRationalAlgorithm : Prop :=
  ∀ (s : State) (n : Note), n.toNat ≤ 131 → 0 < s.cfg.baseDen →
    ∃ fnum block, Spec.IsCode s.cfg n fnum block ∧
      exec (.encode n) s = .next { s with
        result := .bytes (BitVec.ofNat 8 (((fnum >>> 8) &&& 0x7) ||| ((block &&& 0x7) <<< 3)))
          (BitVec.ofNat 8 (fnum &&& 0xFF)) }

/-- R121, R131: `ENCODE` of a note above 131 returns RangeError and no bytes, and writes no state of the
block. -/
def Obligations.EncodeRejectsNotesAbove131 : Prop :=
  ∀ (s : State) (n : Note), 131 < n.toNat → exec (.encode n) s = .next { s with result := .rangeError n }

/-- R128: the integer-only form gives the same `(fnum, block)` as the rules over rationals, for every legal
note and every table. -/
def Obligations.IntegerFormOfTheEncoder : Prop :=
  ∀ (c : Params) (n : Note) (k : Nat), 0 < c.baseDen →
    let A := c.base ⟨n.toNat % 12, Nat.mod_lt _ (by decide)⟩ * 2 ^ (n.toNat / 12)
    let B := 32 * c.baseDen
    A < 2048 * B * 2 ^ k → (∀ j < k, 2048 * B * 2 ^ j ≤ A) →
      Spec.IsCode c n (A / (B * 2 ^ k)) (2 + k) ∧ frequencyCode c n = (A / (B * 2 ^ k), 2 + k)

/-- R126, R127: `fnum` fits 11 bits, and as bit fields `highByte` is `00`, `block[2:0]`, `fnum[10:8]` and
`lowByte` is `fnum[7:0]`; hence `highByte <= 0x3F`. -/
def Obligations.BytesPackBlockAndFnum : Prop :=
  ∀ (c : Params) (n : Note) (high low : Byte), 0 < c.baseDen → encodeNote c n = some (high, low) →
    ∃ fnum block, frequencyCode c n = (fnum, block) ∧ fnum ≤ 2047 ∧ high.toNat ≤ 0x3F ∧
      high = 0#2 ++ BitVec.ofNat 3 block ++ (BitVec.ofNat 11 fnum).extractLsb' 8 3 ∧
      low = (BitVec.ofNat 11 fnum).extractLsb' 0 8

/-- R9 (b): if every table entry is below 2048, `block <= 7` for every legal note. -/
def Obligations.BlockFitsThreeBits : Prop :=
  ∀ (c : Params) (n : Note), 0 < c.baseDen → c.EntriesBelowLimit → n.toNat ≤ 131 → (frequencyCode c n).2 ≤ 7

/-- R130 (b), R9 (c): `block` is non-decreasing over the whole legal range. -/
def Obligations.BlockNeverFalls : Prop :=
  ∀ (c : Params) (n m : Note), 0 < c.baseDen → c.TableAscending → n.toNat ≤ m.toNat → m.toNat ≤ 131 →
    (frequencyCode c n).2 ≤ (frequencyCode c m).2

/-! ### The channel allocator (41_channel_allocator.md) -/

/-- R141, R150: `ALLOCATE` completes with a handle to the lowest inactive slot, whose six fields it writes, with
the bytes of `ENCODE`; no other slot is written, nor anything else of the block. With no slot free it returns
NoFreeChannel and writes nothing. -/
def Obligations.AllocateTakesTheLowestFreeSlot : Prop :=
  ∀ (s : State) (n : Note) (v : Velocity), n.toNat ≤ 131 →
    (∀ i : Fin 6, s.pool.LowestFree i →
      ∃ high low t, exec (.encode n) s = .next { s with result := .bytes high low } ∧
        exec (.allocate n v) s = .next t ∧ t.result = .handle i ∧
        t.pool.slot i = ⟨true, some (BitVec.ofNat 3 i.val), some n, some high, some low, some v⟩ ∧
        (∀ j : Fin 6, j ≠ i → t.pool.slot j = s.pool.slot j) ∧
        SameFront s t ∧ SameBus s t ∧ SameResponse s t ∧ t.inited = s.inited ∧ t.busy = s.busy ∧ t.seq = s.seq) ∧
    (s.pool.Full → exec (.allocate n v) s = .next { s with result := .noFreeChannel })

/-- R142: on a full pool `ALLOCATE` returns NoFreeChannel and writes nothing, whatever the note. -/
def Obligations.AllocateOnAFullPool : Prop :=
  ∀ (s : State) (n : Note) (v : Velocity), s.pool.Full →
    exec (.allocate n v) s = .next { s with result := .noFreeChannel }

/-- The model's reading of R141 with R11 (log 19): a bare `ALLOCATE` of a note above 131 with a slot free ends
with `ENCODE`'s RangeError before any field is written. -/
def Obligations.AllocateOfANoteAbove131 : Prop :=
  ∀ (s : State) (n : Note) (v : Velocity), 131 < n.toNat → ¬ s.pool.Full →
    exec (.allocate n v) s = .next { s with result := .rangeError n }

/-- R144, R146: `RELEASE` completes by resetting the first active slot that holds the note, and returns the
`keyOffset` read before the reset; no other slot is written, nor anything else of the block. With no active slot
that holds the note it returns NotFound and writes nothing. -/
def Obligations.ReleaseFreesTheFirstMatch : Prop :=
  ∀ (s : State) (n : Note), s.pool.Consistent → s.pool.Indexed →
    (∀ i : Fin 6, s.pool.FirstHolds i n →
      ∃ t, exec (.release n) s = .next t ∧ t.result = .keyOffset (BitVec.ofNat 3 (Spec.keyOffset i)) ∧
        t.pool.slot i = ⟨false, none, none, none, none, none⟩ ∧
        (∀ j : Fin 6, j ≠ i → t.pool.slot j = s.pool.slot j) ∧
        SameFront s t ∧ SameBus s t ∧ SameResponse s t ∧ t.inited = s.inited ∧ t.busy = s.busy ∧ t.seq = s.seq) ∧
    ((∀ i : Fin 6, ¬ s.pool.Holds i n) → exec (.release n) s = .next { s with result := .notFound })

/-- R145: if no active slot holds the note, `RELEASE` returns NotFound and writes nothing. -/
def Obligations.ReleaseOfAnUnheldNote : Prop :=
  ∀ (s : State) (n : Note), s.pool.Consistent → (∀ i : Fin 6, ¬ s.pool.Holds i n) →
    exec (.release n) s = .next { s with result := .notFound }

/-- R23, U11: reading an `UNSET` field stops the model. In a pool whose first active slot has no note,
`RELEASE` stops by name on that slot. No run gets there (`PoolInvariantKept`). -/
def Obligations.ReleaseStopsOnAnUnsetNote : Prop :=
  ∀ (s : State) (n : Note) (i : Fin 6), (s.pool.slot i).active = true → (s.pool.slot i).note = none →
    (∀ j : Fin 6, j < i → (s.pool.slot j).active = false) →
      exec (.release n) s = .fault (.unsetField i .note)

/-- R147: `POOL_RESET` completes with every slot `UNSET`, and issues no register write. -/
def Obligations.PoolResetClearsEverySlot : Prop :=
  ∀ s : State, ∃ t, exec .poolReset s = .next t ∧
    (∀ i : Fin 6, t.pool.slot i = ⟨false, none, none, none, none, none⟩) ∧
    SameFront s t ∧ SameBus s t ∧ SameResponse s t ∧ SameControl s t

/-- R149 item 3: `ALLOCATE` raises the number of active slots by one or leaves it, `RELEASE` lowers it by one
or leaves it, `POOL_RESET` makes it 0, from whatever it was; it is never above 6. -/
def Obligations.ActiveSlotsAreCounted : Prop :=
  ∀ s t : State, s.pool.activeCount ≤ 6 ∧
    (∀ n v, exec (.allocate n v) s = .next t →
      t.pool.activeCount = s.pool.activeCount + 1 ∨ t.pool = s.pool) ∧
    (∀ n v, n.toNat ≤ 131 → exec (.allocate n v) s = .next t → t.pool = s.pool → s.pool.activeCount = 6) ∧
    (∀ n, exec (.release n) s = .next t →
      t.pool.activeCount + 1 = s.pool.activeCount ∨ t.pool = s.pool) ∧
    (exec .poolReset s = .next t → t.pool.activeCount = 0)

/-! ### The register bus (42_register_bus.md) -/

/-- R160 to R168, R170, R172: `REGWRITE` completes; the thirteen events of R170 stand in the trace in order,
the pins are idle afterwards with the port and the data kept (R167), the bus log has one more entry, the
location holds the data and every other location what it held; nothing else of the block changes. -/
def Obligations.RegwriteFollowsTheProtocol : Prop :=
  ∀ (s : State) (a d : Byte) (p : Port), s.tx = .none →
    ∃ t, exec (.regwrite a d p) s = .next t ∧
      t.trace = s.trace ++
        [.psel p, .dsel .deasserted, .dbus a, .strobe .asserted, .settle s.cfg.tSettle, .strobe .deasserted,
          .dsel .asserted, .dbus d, .strobe .asserted, .settle s.cfg.tSettle, .strobe .deasserted,
          .dsel .deasserted, .settle s.cfg.tSettle] ∧
      t.pins = ⟨s.pins.reset, .deasserted, .deasserted, s.pins.rd, .deasserted, p, d, true⟩ ∧
      t.tx = .none ∧ t.log = s.log ++ [⟨a, d, p⟩] ∧ t.chipAt p a = some d ∧
      (∀ q b, ¬ (q = p ∧ b = a) → t.chipAt q b = s.chipAt q b) ∧
      t.pool = s.pool ∧ SameFront s t ∧ SameResponse s t ∧ SameControl s t

/-- R169: over any list of writes, `DSEL`, `DBUS` and `PSEL` change only while `CS` and `WR` are deasserted and
the strobes alternate; R174: each write takes at least three settle delays. -/
def Obligations.WritesKeepTheBusDiscipline : Prop :=
  ∀ (t : Nat) (ws : List RegWrite), disciplined .deasserted (ws.flatMap (writeTrace t)) = true ∧
    leastTime (ws.flatMap (writeTrace t)) = ws.length * (3 * t)

/-- R30: at every event of a write the active-low lines are at 0 while asserted, A1 is the port number, and
A0 is at `A0_DATA_LEVEL` exactly in the data phase. -/
def Obligations.ElectricalLevelsOfAWrite : Prop :=
  ∀ (c : Params) (w : RegWrite) (x : Pins),
    let address := ((addressPhase c.tSettle w).take 4).foldl (fun x e => e.apply x) x
    let released := (addressPhase c.tSettle w).foldl (fun x e => e.apply x) x
    let data := ((dataPhase c.tSettle w).take 3).foldl (fun x e => e.apply x) released
    (activeLow address.cs = 0 ∧ activeLow address.wr = 0 ∧ a0Level c address = ~~~c.a0DataLevel ∧
      address.psel = w.port ∧ address.dbus = w.address ∧ address.dbusDriven = true) ∧
    (activeLow released.cs = 1 ∧ activeLow released.wr = 1) ∧
    (activeLow data.cs = 0 ∧ activeLow data.wr = 0 ∧ a0Level c data = c.a0DataLevel ∧
      data.psel = w.port ∧ data.dbus = w.data ∧ data.dbusDriven = true)

/-- R99, R183, R185, R192: each bus-write class of a note command completes as the one register write of its
bit pattern. -/
def Obligations.NoteBusClassesWrite : Prop :=
  ∀ s : State, s.tx = .none →
    (∀ p n b f, ∃ t, exec (.wFnumHi p n b f) s = .next t ∧
      Wrote [⟨0b101001#6 ++ n, 0#2 ++ b ++ f, p⟩] s t ∧
      t.pool = s.pool ∧ SameFront s t ∧ SameResponse s t ∧ SameControl s t) ∧
    (∀ p n f, ∃ t, exec (.wFnumLo p n f) s = .next t ∧ Wrote [⟨0b101000#6 ++ n, f, p⟩] s t ∧
      t.pool = s.pool ∧ SameFront s t ∧ SameResponse s t ∧ SameControl s t) ∧
    (∀ k, ∃ t, exec (.wKeyOn k) s = .next t ∧
      Wrote [⟨0b00101000#8, 0b11110#5 ++ k, s.cfg.keyPort⟩] s t ∧
      t.pool = s.pool ∧ SameFront s t ∧ SameResponse s t ∧ SameControl s t) ∧
    (∀ k, ∃ t, exec (.wKeyOff k) s = .next t ∧
      Wrote [⟨0b00101000#8, 0#5 ++ k, s.cfg.keyPort⟩] s t ∧
      t.pool = s.pool ∧ SameFront s t ∧ SameResponse s t ∧ SameControl s t) ∧
    (∀ p op n a, ∃ t, exec (.wTl p op n a) s = .next t ∧
      Wrote [⟨s.cfg.tl op + n.setWidth 8, a, p⟩] s t ∧
      t.pool = s.pool ∧ SameFront s t ∧ SameResponse s t ∧ SameControl s t)

/-- R99, R34, R195: each bus-write class of the voice program completes as the one register write of its bit
pattern. -/
def Obligations.VoiceBusClassesWrite : Prop :=
  ∀ s : State, s.tx = .none →
    (∀ p d, ∃ t, exec (.wLfo p d) s = .next t ∧ Wrote [⟨0b00100010#8, d, p⟩] s t ∧
      t.pool = s.pool ∧ SameFront s t ∧ SameResponse s t ∧ SameControl s t) ∧
    (∀ p d, ∃ t, exec (.wMode p d) s = .next t ∧ Wrote [⟨0b00100111#8, d, p⟩] s t ∧
      t.pool = s.pool ∧ SameFront s t ∧ SameResponse s t ∧ SameControl s t) ∧
    (∀ p d, ∃ t, exec (.wDac p d) s = .next t ∧ Wrote [⟨0b00101011#8, d, p⟩] s t ∧
      t.pool = s.pool ∧ SameFront s t ∧ SameResponse s t ∧ SameControl s t) ∧
    (∀ p x n d, ∃ t, exec (.wOpparam p x n d) s = .next t ∧ Wrote [⟨x ++ n, d, p⟩] s t ∧
      t.pool = s.pool ∧ SameFront s t ∧ SameResponse s t ∧ SameControl s t) ∧
    (∀ p n d, ∃ t, exec (.wFbAlg p n d) s = .next t ∧ Wrote [⟨0b101100#6 ++ n, d, p⟩] s t ∧
      t.pool = s.pool ∧ SameFront s t ∧ SameResponse s t ∧ SameControl s t) ∧
    (∀ p n d, ∃ t, exec (.wPan p n d) s = .next t ∧ Wrote [⟨0b101101#6 ++ n, d, p⟩] s t ∧
      t.pool = s.pool ∧ SameFront s t ∧ SameResponse s t ∧ SameControl s t)

/-! ### Host commands and composites (43_composite_ops.md) -/

/-- R22: the derived fields of every index, and the addresses and key data they lead to (V311). -/
def Obligations.DerivedFieldsOfASlot : Prop :=
  ∀ i : Fin 6, portOf (indexOf i) = Spec.port i ∧ (offsetOf (indexOf i)).toNat = Spec.offset i ∧
    (keyOffsetOf (indexOf i)).toNat = Spec.keyOffset i ∧
    keyOffsetOf (indexOf i) = BitVec.ofNat 3 (Spec.offset i) ||| (Spec.port i).setWidth 3 <<< 2 ∧
    keyOffsetOf (indexOf i) ≠ 3 ∧ keyOffsetOf (indexOf i) ≠ 7

/-- R187: the attenuation is `100 - value` up to 100; above, the low 8 bits of the negative difference. -/
def Obligations.AttenuationWrapsAbove100 : Prop :=
  ∀ v : Velocity, (v.toNat ≤ 100 → (attenuation v).toNat = 100 - v.toNat) ∧
    (100 < v.toNat → (attenuation v).toNat = 356 - v.toNat)

/-- R188, R189: `VELOCITY` completes with one Total-Level write per port, slot and audible operator, in that
order, `6 * |AUDIBLE(ALG)|` of them, and writes no state of the block. -/
def Obligations.VelocityWritesEveryVoice : Prop :=
  ∀ (s : State) (v : Velocity), s.tx = .none →
    ∃ t, exec (.velocity v) s = .next t ∧ Wrote (Spec.velocityWrites s.cfg v) s t ∧
      t.log.length = s.log.length + 6 * (Spec.audible s.cfg.alg).length ∧
      t.pool = s.pool ∧ SameFront s t ∧ SameResponse s t ∧ SameControl s t

/-- R195, its pseudocode: `VOICE_PROGRAM` completes with the writes of the parameter list, in list order. -/
def Obligations.VoiceProgramPlaysTheList : Prop :=
  ∀ s : State, s.tx = .none →
    ∃ t, exec .voiceProgram s = .next t ∧ Wrote s.cfg.voiceProgram s t ∧
      t.pool = s.pool ∧ SameFront s t ∧ SameResponse s t ∧ SameControl s t

/-- R196, R197: `INIT` completes: every slot is `UNSET`, the voice program has been played, `inited = 1`, and
the answer is OK, 0, 0. -/
def Obligations.InitResetsPoolAndPlaysVoices : Prop :=
  ∀ s : State, s.tx = .none →
    ∃ t, exec .init s = .next t ∧ (∀ i : Fin 6, t.pool.slot i = ⟨false, none, none, none, none, none⟩) ∧
      t.inited = true ∧ Wrote s.cfg.voiceProgram s t ∧ Ended .ok 0 0 t ∧ SameFront s t

/-- R186 with R181 to R185, the whole command. Not initialised, a note above 131, and a full pool are refused, in
this order, with no effect. Otherwise, with `i` the lowest free slot, slot `i` alone is written, with the bytes of
`ENCODE`; the writes are high byte, low byte, velocity, key-on, in that order and no others; the answer is OK, `i`,
`keyOffset(i)`. -/
def Obligations.KeyOnSoundsTheLowestFreeVoice : Prop :=
  ∀ (s : State) (n : Note) (v : Velocity),
    (s.inited = false → exec (.keyOn n v) s = .next (refused .notInitialised s)) ∧
    (s.inited = true → 131 < n.toNat → exec (.keyOn n v) s = .next (refused .rangeError s)) ∧
    (s.inited = true → n.toNat ≤ 131 → s.pool.Full →
      exec (.keyOn n v) s = .next (refused .resourceExhausted s)) ∧
    (s.tx = .none → s.inited = true → n.toNat ≤ 131 → ∀ i : Fin 6, s.pool.LowestFree i →
      ∃ high low t, exec (.encode n) s = .next { s with result := .bytes high low } ∧
        exec (.keyOn n v) s = .next t ∧
        t.pool.slot i = ⟨true, some (BitVec.ofNat 3 i.val), some n, some high, some low, some v⟩ ∧
        (∀ j : Fin 6, j ≠ i → t.pool.slot j = s.pool.slot j) ∧
        Wrote (Spec.keyOnWrites s.cfg i high low v) s t ∧
        Ended .ok (BitVec.ofNat 3 i.val) (BitVec.ofNat 3 (Spec.keyOffset i)) t ∧
        t.inited = true ∧ SameFront s t)

/-- R193 with R191, R192, R194, the whole command, for any note. Not initialised and a note no active slot holds
are refused, in this order, with no effect. Otherwise, with `i` the first active slot that holds the note, slot `i`
alone is reset, the one write is `(0x28, keyOffset(i), KEY_PORT)`, and the answer is OK, 0, `keyOffset(i)`. -/
def Obligations.KeyOffSilencesTheFirstMatch : Prop :=
  ∀ (s : State) (n : Note),
    (s.inited = false → exec (.keyOff n) s = .next (refused .notInitialised s)) ∧
    (s.inited = true → s.pool.Consistent → (∀ i : Fin 6, ¬ s.pool.Holds i n) →
      exec (.keyOff n) s = .next (refused .notFound s)) ∧
    (s.tx = .none → s.inited = true → s.pool.Consistent → s.pool.Indexed → ∀ i : Fin 6, s.pool.FirstHolds i n →
      ∃ t, exec (.keyOff n) s = .next t ∧ t.pool.slot i = ⟨false, none, none, none, none, none⟩ ∧
        (∀ j : Fin 6, j ≠ i → t.pool.slot j = s.pool.slot j) ∧
        Wrote [⟨0x28, BitVec.ofNat 8 (Spec.keyOffset i), s.cfg.keyPort⟩] s t ∧
        Ended .ok 0 (BitVec.ofNat 3 (Spec.keyOffset i)) t ∧ t.inited = true ∧ SameFront s t)

/-- R200: the reserved code ends with ILLEGAL_COMMAND, whatever `inited` is: no state change but the
response, no register write. -/
def Obligations.ReservedCodeIsIllegal : Prop :=
  ∀ s : State, exec .reservedOp3 s = .next (refused .illegalCommand s) ∧ (refused .illegalCommand s).rspStatus = 5

/-! ### Outcomes (60_exceptions.md) -/

/-- R219: the checks of each command, first match wins, and the code of each (R211). -/
def Obligations.OutcomePriority : Prop :=
  ∀ (s : State) (n : Note) (v : Velocity),
    (∃ t, exec .reservedOp3 s = .next t ∧ t.rspStatus = 5) ∧
    (∃ t, exec .init s = .next t ∧ t.rspStatus = 0) ∧
    (s.inited = false → ∃ t, exec (.keyOn n v) s = .next t ∧ t.rspStatus = 4) ∧
    (s.inited = true → 131 < n.toNat → ∃ t, exec (.keyOn n v) s = .next t ∧ t.rspStatus = 3) ∧
    (s.inited = true → n.toNat ≤ 131 → s.pool.Full → ∃ t, exec (.keyOn n v) s = .next t ∧ t.rspStatus = 1) ∧
    (s.inited = true → n.toNat ≤ 131 → ¬ s.pool.Full → ∃ t, exec (.keyOn n v) s = .next t ∧ t.rspStatus = 0) ∧
    (s.inited = false → ∃ t, exec (.keyOff n) s = .next t ∧ t.rspStatus = 4) ∧
    (s.inited = true → s.pool.Consistent → (∀ i : Fin 6, ¬ s.pool.Holds i n) →
      ∃ t, exec (.keyOff n) s = .next t ∧ t.rspStatus = 2) ∧
    (s.inited = true → s.pool.Consistent → (∃ i : Fin 6, s.pool.Holds i n) →
      ∃ t, exec (.keyOff n) s = .next t ∧ t.rspStatus = 0)

/-- R214: a command that ends with an outcome other than OK has written the response latches, `busy` and
`seq`, and nothing else (`refused` says so field by field). -/
def Obligations.FailedCommandHasNoEffect : Prop :=
  ∀ (i : Instr) (s t : State), (∃ w, hostWord i = some w) → exec i s = .next t → t.rspStatus ≠ 0 →
    ∃ st : Status, st.code = t.rspStatus ∧ t = refused st s

/-- R191, R145, U17: a `KEY_OFF` of a note above 131 is never a RANGE_ERROR; on an initialised block that meets
the pool's invariant it is NOT_FOUND. -/
def Obligations.KeyOffAbove131IsNotFound : Prop :=
  ∀ (s : State) (n : Note), s.inited = true → s.PoolInv → 131 < n.toNat →
    ∃ t, exec (.keyOff n) s = .next t ∧ t.rspStatus = 2 ∧ t.pool = s.pool ∧ SameBus s t

/-- R148, R199: every operation is total. In a consistent pool each of the 22 rows answers a next state; in any
pool a row can stop only by reading an `UNSET` field, and none is refused. -/
def Obligations.EveryOperationIsTotal : Prop :=
  ∀ (i : Instr) (s : State), (s.pool.Consistent → ∃ t, exec i s = .next t) ∧
    (∀ f, exec i s = .fault f → ∃ j field, f = .unsetField j field) ∧ ∀ r, exec i s ≠ .refused r

/-! ### Whole-machine rules -/

/-- R24, R26, R149: every step keeps the invariant of the pool, in every state that meets it. -/
def Obligations.PoolInvariantKept : Prop :=
  ∀ s t : State, s.PoolInv → step s = .next t → t.PoolInv

/-- The invariant of the pool holds at reset. -/
def Obligations.PoolInvariantAtReset : Prop := State.reset.PoolInv

/-- R33: every step keeps the image what the bus log last wrote, and the image canonical. -/
def Obligations.ImageFollowsLogKept : Prop :=
  ∀ s t : State, s.ImageFollowsLog → step s = .next t →
    t.ImageFollowsLog ∧ (Memory.wf s.chip = true → Memory.wf t.chip = true)

/-- R69, R170: every step keeps the pin trace what the bus log and the write in flight make it: each write
appears once, at its place, whole. -/
def Obligations.TraceFollowsLogKept : Prop :=
  ∀ s t : State, s.TraceFollowsLog → step s = .next t → t.TraceFollowsLog

/-- The observer state and the pins at reset meet their invariants (R36, R33). -/
def Obligations.ObserverAtReset : Prop :=
  State.reset.ImageFollowsLog ∧ State.reset.TraceFollowsLog ∧ Memory.wf State.reset.chip = true ∧
    State.reset.PinsQuiet ∧ State.reset.AtRest

/-- R167, R173: every step keeps the strobes and the read-strobe deasserted between phases, and data-select
deasserted between writes. -/
def Obligations.PinsStayQuiet : Prop :=
  ∀ s t : State, s.PinsQuiet → step s = .next t → t.PinsQuiet

/-- R12, R29: from a state at rest a step ends at rest: a command is one indivisible step. -/
def Obligations.CommandsAreIndivisible : Prop :=
  ∀ s t : State, s.AtRest → step s = .next t → t.AtRest

/-- R69, R240: a step only appends to the bus log, unless the reset input is asserted; and each entry it
appends is a write of R34's documented subset or of the voice program, or the write that was in flight (R66). -/
def Obligations.StepsOnlyAppendDocumentedWrites : Prop :=
  ∀ s t : State, (∀ rest, s.inputs ≠ .resetInput .asserted :: rest) → step s = .next t →
    ∃ ws, t.log = s.log ++ ws ∧ ∀ w ∈ ws,
      w.address = 0x28 ∨ (0xA0 ≤ w.address.toNat ∧ w.address.toNat ≤ 0xA2) ∨
      (0xA4 ≤ w.address.toNat ∧ w.address.toNat ≤ 0xA6) ∨
      (∃ op, ∃ n < 3, w.address = s.cfg.tl op + BitVec.ofNat 8 n) ∨ w ∈ s.cfg.voiceProgram ∨
      s.tx = .addr w ∨ s.tx = .data w ∨ s.tx = .recover w

/-- R20, R28, R36: no operation, no step and no reset changes a parameter. -/
def Obligations.ParametersNeverChange : Prop :=
  (∀ (i : Instr) (s t : State), exec i s = .next t → t.cfg = s.cfg) ∧ ∀ s t : State, step s = .next t → t.cfg = s.cfg

/-- R27, R197: `inited` is set by `INIT` alone and cleared by reset alone. -/
def Obligations.OnlyInitSetsInited : Prop :=
  (∀ (i : Instr) (s t : State), exec i s = .next t → t.inited = (s.inited || decide (i = .init))) ∧
    ∀ s t : State, step s = .next t → s.inited = true → t.inited = false →
      ∃ rest, s.inputs = .resetInput .asserted :: rest

/-- R25, R61: the pool is written by `ALLOCATE`, `RELEASE` and `POOL_RESET` and the commands that call them,
and by no other operation; those three internal operations and `ENCODE` never touch the bus. -/
def Obligations.PoolAndBusHaveTheirOwners : Prop :=
  ∀ (i : Instr) (s t : State), exec i s = .next t →
    (t.pool ≠ s.pool → i = .init ∨ i = .poolReset ∨ (∃ n v, i = .keyOn n v ∨ i = .allocate n v) ∨
      ∃ n, i = .keyOff n ∨ i = .release n) ∧
    ((∃ n v, i = .encode n ∨ i = .allocate n v ∨ i = .release n ∨ i = .poolReset) → SameBus s t)

/-- R211, R28: a command latches one of the codes 0 to 5, and no other operation touches the latches; every
step keeps `rsp_status <= 5`. -/
def Obligations.OutcomeCodesStayInRange : Prop :=
  (∀ (i : Instr) (s t : State), exec i s = .next t →
    ((∃ w, hostWord i = some w) → t.rspStatus.toNat ≤ 5 ∧ t.rspValid = true ∧ t.busy = false ∧ t.seq = .idle) ∧
    (hostWord i = none → SameResponse s t ∧ t.busy = s.busy ∧ t.seq = s.seq)) ∧
  ∀ s t : State, s.rspStatus.toNat ≤ 5 → step s = .next t → t.rspStatus.toNat ≤ 5

/-- R70, R250, R192, R249: the writes a note command appends, on every path. `KEY_OFF` appends nothing, or the
one write to register 0x28. `KEY_ON` appends nothing, or a list whose first two entries are the frequency
writes of the allocated voice and whose last is that voice's key-on write. -/
def Obligations.FrequencyWritesPrecedeKeyOn : Prop :=
  ∀ (s t : State) (n : Note) (v : Velocity), s.tx = .none →
    (exec (.keyOff n) s = .next t →
      t.log = s.log ∨ ∃ k : BitVec 3, t.log = s.log ++ [⟨0x28, k.setWidth 8, s.cfg.keyPort⟩]) ∧
    (exec (.keyOn n v) s = .next t →
      t.log = s.log ∨ ∃ (i : Fin 6) (high low : Byte) (tl : List RegWrite),
        t.rspIndex = BitVec.ofNat 3 i.val ∧ (∀ w ∈ tl, ∃ op, ∃ m < 3, w.address = s.cfg.tl op + BitVec.ofNat 8 m) ∧
        t.log = s.log ++
          ([⟨BitVec.ofNat 8 (0xA4 + Spec.offset i), high, Spec.port i⟩,
            ⟨BitVec.ofNat 8 (0xA0 + Spec.offset i), low, Spec.port i⟩] ++ tl ++
            [⟨0x28, BitVec.ofNat 8 (0xF0 + Spec.keyOffset i), s.cfg.keyPort⟩]))

/-- R149 item 6, V301, V304: a `KEY_OFF` right after a `KEY_ON` of a note no slot held answers OK with the
same `keyOffset`, issues one write, and gives the pool back as it was. -/
def Obligations.KeyOffUndoesKeyOn : Prop :=
  ∀ (s : State) (n : Note) (v : Velocity), s.AtRest → s.PoolInv → s.inited = true → n.toNat ≤ 131 →
    ¬ s.pool.Full → (∀ i : Fin 6, ¬ s.pool.Holds i n) →
    ∃ t u, exec (.keyOn n v) s = .next t ∧ exec (.keyOff n) t = .next u ∧
      t.rspStatus = 0 ∧ u.rspStatus = 0 ∧ u.rspKeyoff = t.rspKeyoff ∧ u.pool = s.pool ∧
      u.log = t.log ++ [⟨0x28, t.rspKeyoff.setWidth 8, s.cfg.keyPort⟩]

/-- R29, D28: the sequencer's rows, from acceptance to `IDLE`, do what the command does as one indivisible
step (R12): the refinement agrees, outcome by outcome, from every state. -/
def Obligations.SequencerRefinesTheCommand : Prop :=
  ∀ (s : State) (w : CommandWord) (rest : List HostEvent),
    advanceRows 8 (accept (opField w) (noteField w) (velField w) rest s) =
      exec (decodeHost w) (accept (opField w) (noteField w) (velField w) rest s)
end

