-- ==== Sys2Proof/Laws/Allocator.lean ====
section
/-! SUPPORT. What the allocator's scans find, and what `ALLOCATE` and `RELEASE` can answer: one lemma each,
for callers to cite instead of unfolding the scans. -/

namespace Sys2Proof.Machine

/-- Reading a slot of a pool after slot `i` is replaced. -/
theorem pool_put_get (pool : Pool) (i j : Fin 6) (sl : Slot) :
    (Pool.put pool i sl).slot j = if i = j then sl else (pool.slot j) := by
  show (Vector.set pool i.val sl i.isLt)[j.val] = if i = j then sl else pool[j.val]
  rw [Vector.getElem_set]
  simp [Fin.ext_iff]

/-- Every slot of the empty pool is the sentinel. -/
@[simp] theorem pool_empty_get (i : Fin 6) : Pool.empty.slot i = Slot.unset := by
  simp [Pool.slot, Pool.empty]

/-- The scan order is the positions in rising order. -/
theorem scanOrder_get (k : Nat) (h : k < scanOrder.length) : scanOrder[k] = ⟨k, h⟩ := by
  have h6 : k < 6 := h
  interval_cases k <;> rfl

/-- A scan in index order finds the least position that meets a predicate (R140). -/
theorem scan_eq_some (p : Fin 6 → Bool) (i : Fin 6) :
    scanOrder.find? p = some i ↔ p i = true ∧ ∀ j : Fin 6, j < i → p j = false := by
  rw [List.find?_eq_some_iff_getElem]
  constructor
  · rintro ⟨hp, k, hk, hki, hlt⟩
    refine ⟨hp, fun j hj => ?_⟩
    rw [scanOrder_get k hk] at hki
    subst hki
    have := hlt j.val hj
    rw [scanOrder_get] at this
    simpa using this
  · rintro ⟨hp, hlt⟩
    refine ⟨hp, i.val, i.isLt, scanOrder_get _ _, fun j hj => ?_⟩
    rw [scanOrder_get]
    simp [hlt ⟨j, hj.trans i.isLt⟩ hj]

/-- A scan finds nothing exactly when no position meets the predicate. -/
theorem scan_eq_none (p : Fin 6 → Bool) : scanOrder.find? p = none ↔ ∀ j : Fin 6, p j = false := by
  simp [scanOrder, Fin.forall_fin_succ]

/-- `ALLOCATE`'s scan finds the lowest inactive slot (R141). -/
theorem firstFree_eq_some (pool : Pool) (i : Fin 6) : firstFree pool = some i ↔ pool.LowestFree i := by
  rw [firstFree, scan_eq_some]
  simp

/-- `ALLOCATE`'s scan finds no slot exactly when the pool is full (R142). -/
theorem firstFree_eq_none (pool : Pool) : firstFree pool = none ↔ pool.Full := by
  rw [firstFree, scan_eq_none]
  simp

/-- All that `ALLOCATE` can answer (R141, R142): a handle to the lowest inactive slot, which then holds the
six fields; no free channel on a full pool; RangeError on a free slot with a note above 131. -/
theorem allocate_cases (c : Params) (note : Note) (vel : Velocity) (pool : Pool) :
    (∃ i high low, pool.LowestFree i ∧ encodeNote c note = some (high, low) ∧
      allocate c note vel pool = .handle i (Pool.put pool i (allocatedSlot i note vel high low))) ∨
    (pool.Full ∧ allocate c note vel pool = .noFreeChannel) ∨
    ((∃ i, pool.LowestFree i) ∧ encodeNote c note = none ∧ allocate c note vel pool = .rangeError) := by
  unfold allocate
  cases hf : firstFree pool with
  | none => exact .inr (.inl ⟨(firstFree_eq_none pool).1 hf, rfl⟩)
  | some i =>
    have hi := (firstFree_eq_some pool i).1 hf
    cases he : encodeNote c note with
    | none => exact .inr (.inr ⟨⟨i, hi⟩, rfl, rfl⟩)
    | some b => exact .inl ⟨i, b.1, b.2, hi, rfl, rfl⟩

/-- In a consistent pool the scan for a note reads only fields that are set. -/
theorem scanNote_eq (note : Note) (pool : Pool) (hc : pool.Consistent) (is : List (Fin 6)) :
    scanNote note pool is = .ok (is.find? fun i => (pool.slot i).active && (pool.slot i).note == some note) := by
  induction is with
  | nil => rfl
  | cons i is ih =>
    simp only [scanNote, List.find?_cons]
    by_cases ha : (pool.slot i).active = true
    · have hset := ((hc i).1.1 ha).2.1
      obtain ⟨n, hn⟩ := Option.isSome_iff_exists.1 hset
      by_cases hnn : n = note
      · simp [ha, hn, readField, hnn]
      · have hb : (n == note) = false := by simpa using hnn
        simp [ha, hn, readField, hnn, hb, ih]
    · simp [ha, ih]

/-- All that `RELEASE` can answer in a consistent pool (R144, R145): the first active slot that holds the
note is reset and its `keyOffset` returned, or no slot holds the note and nothing is written. -/
theorem release_cases (note : Note) (pool : Pool) (hc : pool.Consistent) :
    (∃ i index, pool.FirstHolds i note ∧ (pool.slot i).index = some index ∧
      release note pool = .ok (.keyOffset (keyOffsetOf index) (Pool.put pool i Slot.unset))) ∨
    ((∀ i : Fin 6, ¬ pool.Holds i note) ∧ release note pool = .ok .notFound) := by
  unfold release
  rw [scanNote_eq note pool hc]
  cases hf : scanOrder.find? (fun i => (pool.slot i).active && (pool.slot i).note == some note) with
  | none =>
    rw [scan_eq_none] at hf
    refine .inr ⟨fun i h => ?_, rfl⟩
    have := hf i
    simp [h.1, h.2] at this
  | some i =>
    rw [scan_eq_some] at hf
    obtain ⟨hi, hlt⟩ := hf
    have hi' : pool.Holds i note := by simpa using hi
    obtain ⟨index, hx⟩ := Option.isSome_iff_exists.1 ((hc i).1.1 hi'.1).1
    refine .inl ⟨i, index, ⟨hi', fun j hj h => ?_⟩, hx, ?_⟩
    · have := hlt j hj
      simp [h.1, h.2] at this
    · simp [hx, readField]

end Sys2Proof.Machine
end

