-- ==== Sys2Proof/Laws/Memory.lean ====
section
/-! SUPPORT. The laws of the chip register image: a read after a write, and the canonical form (R33). -/

namespace Sys2Proof.Machine

/-- Reading the key just written gives the byte written. -/
theorem memory_read_write_same (m : Memory) (a : Nat) (b : Byte) : Memory.read (Memory.write m a b) a = some b := by
  induction m with
  | nil => simp [Memory.write, Memory.read]
  | cons cell rest ih =>
    obtain ⟨k, x⟩ := cell
    simp only [Memory.write]
    split
    · simp [Memory.read]
    · split
      · simp [Memory.read]
      · rename_i hk
        simp [Memory.read, Ne.symm hk, ih]

/-- Reading another key is not affected by a write. -/
theorem memory_read_write_other (m : Memory) (a a' : Nat) (b : Byte) (h : a' ≠ a) :
    Memory.read (Memory.write m a b) a' = Memory.read m a' := by
  induction m with
  | nil => simp [Memory.write, Memory.read, h.symm]
  | cons cell rest ih =>
    obtain ⟨k, x⟩ := cell
    simp only [Memory.write]
    split
    · simp [Memory.read, h.symm]
    · split
      · rename_i hk
        subst hk
        simp [Memory.read, h.symm]
      · simp [Memory.read, ih]

/-- Every key of the image after a write is an old key or the key written. -/
theorem memory_write_keys (m : Memory) (a : Nat) (b : Byte) (p : Nat → Bool) (ha : p a = true)
    (hm : m.all (fun cell => p cell.1) = true) : (Memory.write m a b).all (fun cell => p cell.1) = true := by
  induction m with
  | nil => simp [Memory.write, ha]
  | cons cell rest ih =>
    obtain ⟨k, x⟩ := cell
    simp only [List.all_cons, Bool.and_eq_true] at hm
    simp only [Memory.write]
    split
    · simp [ha, hm.1, hm.2]
    · split
      · simp [ha, hm.2]
      · simp [hm.1, ih hm.2]

/-- A write keeps the canonical form, and a write of the byte that is there changes nothing. -/
theorem memory_write_wf (m : Memory) (a : Nat) (b : Byte) (ha : a < 512) (hm : Memory.wf m = true) :
    Memory.wf (Memory.write m a b) = true := by
  induction m with
  | nil => simp [Memory.write, Memory.wf, ha]
  | cons cell rest ih =>
    obtain ⟨k, x⟩ := cell
    simp only [Memory.wf, Bool.and_eq_true, decide_eq_true_eq] at hm
    obtain ⟨⟨hk, hall⟩, hrest⟩ := hm
    simp only [Memory.write]
    split
    · rename_i hlt
      have : rest.all (fun cell => decide (a < cell.1)) = true := by
        simp only [List.all_eq_true, decide_eq_true_eq] at hall ⊢
        intro c hc
        exact hlt.trans (hall c hc)
      simp [Memory.wf, ha, hk, hall, hrest, hlt, this]
    · rename_i hge
      split
      · rename_i heq
        subst heq
        simp [Memory.wf, ha, hall, hrest]
      · rename_i hne
        have hlt : k < a := by omega
        have := memory_write_keys rest a b (fun n => decide (k < n)) (by simpa using hlt) hall
        simp [Memory.wf, hk, this, ih hrest]

/-- A location's key lies in the two ports of 256 registers. -/
theorem chipKey_lt (p : Port) (a : Byte) : chipKey p a < 512 := by
  unfold chipKey
  omega

/-- Distinct locations have distinct keys. -/
theorem chipKey_inj (p q : Port) (a b : Byte) (h : chipKey p a = chipKey q b) : p = q ∧ a = b := by
  unfold chipKey at h
  have h1 : p.toNat = q.toNat := by omega
  have h2 : a.toNat = b.toNat := by omega
  exact ⟨BitVec.eq_of_toNat_eq h1, BitVec.eq_of_toNat_eq h2⟩

/-- The one memory operation keeps the canonical form. -/
theorem chipWrite_wf (m : Memory) (w : RegWrite) (hm : Memory.wf m = true) : Memory.wf (chipWrite m w) = true :=
  memory_write_wf m _ _ (chipKey_lt _ _) hm

/-- One location after a register write (R33). -/
theorem read_chipWrite (m : Memory) (w : RegWrite) (p : Port) (a : Byte) :
    Memory.read (chipWrite m w) (chipKey p a) =
      if w.port = p ∧ w.address = a then some w.data else Memory.read m (chipKey p a) := by
  unfold chipWrite
  split
  · rename_i h
    obtain ⟨rfl, rfl⟩ := h
    exact memory_read_write_same _ _ _
  · rename_i h
    apply memory_read_write_other
    intro he
    obtain ⟨h1, h2⟩ := chipKey_inj _ _ _ _ he
    exact h ⟨h1.symm, h2.symm⟩

end Sys2Proof.Machine
end

