-- ==== Sys2Proof/Laws/State.lean ====
section
/-! SUPPORT. The small lemmas of the state's updates: one per field per update, so that no later proof
unfolds a record. The updates of Machine/Ops.lean that go through the bus leave every field before the pins. -/

namespace Sys2Proof.Machine

/-! ### finish -/

@[simp] theorem finish_cfg (st : Status) (index keyoff : BitVec 3) (s : State) : (finish st index keyoff s).cfg = s.cfg := rfl
@[simp] theorem finish_inputs (st : Status) (index keyoff : BitVec 3) (s : State) : (finish st index keyoff s).inputs = s.inputs := rfl
@[simp] theorem finish_cmd (st : Status) (index keyoff : BitVec 3) (s : State) : (finish st index keyoff s).cmd = s.cmd := rfl
@[simp] theorem finish_pool (st : Status) (index keyoff : BitVec 3) (s : State) : (finish st index keyoff s).pool = s.pool := rfl
@[simp] theorem finish_inited (st : Status) (index keyoff : BitVec 3) (s : State) : (finish st index keyoff s).inited = s.inited := rfl
@[simp] theorem finish_busy (st : Status) (index keyoff : BitVec 3) (s : State) : (finish st index keyoff s).busy = false := rfl
@[simp] theorem finish_seq (st : Status) (index keyoff : BitVec 3) (s : State) : (finish st index keyoff s).seq = .idle := rfl
@[simp] theorem finish_result (st : Status) (index keyoff : BitVec 3) (s : State) : (finish st index keyoff s).result = .none := rfl
@[simp] theorem finish_rspStatus (st : Status) (index keyoff : BitVec 3) (s : State) : (finish st index keyoff s).rspStatus = st.code := rfl
@[simp] theorem finish_rspIndex (st : Status) (index keyoff : BitVec 3) (s : State) : (finish st index keyoff s).rspIndex = index := rfl
@[simp] theorem finish_rspKeyoff (st : Status) (index keyoff : BitVec 3) (s : State) : (finish st index keyoff s).rspKeyoff = keyoff := rfl
@[simp] theorem finish_rspValid (st : Status) (index keyoff : BitVec 3) (s : State) : (finish st index keyoff s).rspValid = true := rfl
@[simp] theorem finish_pins (st : Status) (index keyoff : BitVec 3) (s : State) : (finish st index keyoff s).pins = s.pins := rfl
@[simp] theorem finish_tx (st : Status) (index keyoff : BitVec 3) (s : State) : (finish st index keyoff s).tx = s.tx := rfl
@[simp] theorem finish_chip (st : Status) (index keyoff : BitVec 3) (s : State) : (finish st index keyoff s).chip = s.chip := rfl
@[simp] theorem finish_log (st : Status) (index keyoff : BitVec 3) (s : State) : (finish st index keyoff s).log = s.log := rfl
@[simp] theorem finish_trace (st : Status) (index keyoff : BitVec 3) (s : State) : (finish st index keyoff s).trace = s.trace := rfl

/-! ### raise -/

@[simp] theorem raise_cfg (st : Status) (s : State) : (raise st s).cfg = s.cfg := rfl
@[simp] theorem raise_inputs (st : Status) (s : State) : (raise st s).inputs = s.inputs := rfl
@[simp] theorem raise_cmd (st : Status) (s : State) : (raise st s).cmd = s.cmd := rfl
@[simp] theorem raise_pool (st : Status) (s : State) : (raise st s).pool = s.pool := rfl
@[simp] theorem raise_inited (st : Status) (s : State) : (raise st s).inited = s.inited := rfl
@[simp] theorem raise_busy (st : Status) (s : State) : (raise st s).busy = false := rfl
@[simp] theorem raise_seq (st : Status) (s : State) : (raise st s).seq = .idle := rfl
@[simp] theorem raise_result (st : Status) (s : State) : (raise st s).result = .none := rfl
@[simp] theorem raise_rspStatus (st : Status) (s : State) : (raise st s).rspStatus = st.code := rfl
@[simp] theorem raise_rspIndex (st : Status) (s : State) : (raise st s).rspIndex = 0 := rfl
@[simp] theorem raise_rspKeyoff (st : Status) (s : State) : (raise st s).rspKeyoff = 0 := rfl
@[simp] theorem raise_rspValid (st : Status) (s : State) : (raise st s).rspValid = true := rfl
@[simp] theorem raise_pins (st : Status) (s : State) : (raise st s).pins = s.pins := rfl
@[simp] theorem raise_tx (st : Status) (s : State) : (raise st s).tx = s.tx := rfl
@[simp] theorem raise_chip (st : Status) (s : State) : (raise st s).chip = s.chip := rfl
@[simp] theorem raise_log (st : Status) (s : State) : (raise st s).log = s.log := rfl
@[simp] theorem raise_trace (st : Status) (s : State) : (raise st s).trace = s.trace := rfl

/-! ### accept -/

@[simp] theorem accept_cfg (op : BitVec 2) (note : Note) (vel : Velocity) (rest : List HostEvent) (s : State) : (accept op note vel rest s).cfg = s.cfg := rfl
@[simp] theorem accept_inputs (op : BitVec 2) (note : Note) (vel : Velocity) (rest : List HostEvent) (s : State) : (accept op note vel rest s).inputs = rest := rfl
@[simp] theorem accept_cmd (op : BitVec 2) (note : Note) (vel : Velocity) (rest : List HostEvent) (s : State) : (accept op note vel rest s).cmd = ⟨op, note, vel⟩ := rfl
@[simp] theorem accept_pool (op : BitVec 2) (note : Note) (vel : Velocity) (rest : List HostEvent) (s : State) : (accept op note vel rest s).pool = s.pool := rfl
@[simp] theorem accept_inited (op : BitVec 2) (note : Note) (vel : Velocity) (rest : List HostEvent) (s : State) : (accept op note vel rest s).inited = s.inited := rfl
@[simp] theorem accept_busy (op : BitVec 2) (note : Note) (vel : Velocity) (rest : List HostEvent) (s : State) : (accept op note vel rest s).busy = true := rfl
@[simp] theorem accept_seq (op : BitVec 2) (note : Note) (vel : Velocity) (rest : List HostEvent) (s : State) : (accept op note vel rest s).seq = .decode := rfl
@[simp] theorem accept_result (op : BitVec 2) (note : Note) (vel : Velocity) (rest : List HostEvent) (s : State) : (accept op note vel rest s).result = .none := rfl
@[simp] theorem accept_rspStatus (op : BitVec 2) (note : Note) (vel : Velocity) (rest : List HostEvent) (s : State) : (accept op note vel rest s).rspStatus = s.rspStatus := rfl
@[simp] theorem accept_rspIndex (op : BitVec 2) (note : Note) (vel : Velocity) (rest : List HostEvent) (s : State) : (accept op note vel rest s).rspIndex = s.rspIndex := rfl
@[simp] theorem accept_rspKeyoff (op : BitVec 2) (note : Note) (vel : Velocity) (rest : List HostEvent) (s : State) : (accept op note vel rest s).rspKeyoff = s.rspKeyoff := rfl
@[simp] theorem accept_rspValid (op : BitVec 2) (note : Note) (vel : Velocity) (rest : List HostEvent) (s : State) : (accept op note vel rest s).rspValid = false := rfl
@[simp] theorem accept_pins (op : BitVec 2) (note : Note) (vel : Velocity) (rest : List HostEvent) (s : State) : (accept op note vel rest s).pins = s.pins := rfl
@[simp] theorem accept_tx (op : BitVec 2) (note : Note) (vel : Velocity) (rest : List HostEvent) (s : State) : (accept op note vel rest s).tx = s.tx := rfl
@[simp] theorem accept_chip (op : BitVec 2) (note : Note) (vel : Velocity) (rest : List HostEvent) (s : State) : (accept op note vel rest s).chip = s.chip := rfl
@[simp] theorem accept_log (op : BitVec 2) (note : Note) (vel : Velocity) (rest : List HostEvent) (s : State) : (accept op note vel rest s).log = s.log := rfl
@[simp] theorem accept_trace (op : BitVec 2) (note : Note) (vel : Velocity) (rest : List HostEvent) (s : State) : (accept op note vel rest s).trace = s.trace := rfl

/-! ### emit -/

@[simp] theorem emit_cfg (es : List PinEvent) (s : State) : (emit es s).cfg = s.cfg := rfl
@[simp] theorem emit_inputs (es : List PinEvent) (s : State) : (emit es s).inputs = s.inputs := rfl
@[simp] theorem emit_cmd (es : List PinEvent) (s : State) : (emit es s).cmd = s.cmd := rfl
@[simp] theorem emit_pool (es : List PinEvent) (s : State) : (emit es s).pool = s.pool := rfl
@[simp] theorem emit_inited (es : List PinEvent) (s : State) : (emit es s).inited = s.inited := rfl
@[simp] theorem emit_busy (es : List PinEvent) (s : State) : (emit es s).busy = s.busy := rfl
@[simp] theorem emit_seq (es : List PinEvent) (s : State) : (emit es s).seq = s.seq := rfl
@[simp] theorem emit_result (es : List PinEvent) (s : State) : (emit es s).result = s.result := rfl
@[simp] theorem emit_rspStatus (es : List PinEvent) (s : State) : (emit es s).rspStatus = s.rspStatus := rfl
@[simp] theorem emit_rspIndex (es : List PinEvent) (s : State) : (emit es s).rspIndex = s.rspIndex := rfl
@[simp] theorem emit_rspKeyoff (es : List PinEvent) (s : State) : (emit es s).rspKeyoff = s.rspKeyoff := rfl
@[simp] theorem emit_rspValid (es : List PinEvent) (s : State) : (emit es s).rspValid = s.rspValid := rfl
@[simp] theorem emit_pins (es : List PinEvent) (s : State) : (emit es s).pins = es.foldl (fun x e => e.apply x) s.pins := rfl
@[simp] theorem emit_tx (es : List PinEvent) (s : State) : (emit es s).tx = s.tx := rfl
@[simp] theorem emit_chip (es : List PinEvent) (s : State) : (emit es s).chip = s.chip := rfl
@[simp] theorem emit_log (es : List PinEvent) (s : State) : (emit es s).log = s.log := rfl
@[simp] theorem emit_trace (es : List PinEvent) (s : State) : (emit es s).trace = s.trace ++ es := rfl

/-! ### poolReset -/

@[simp] theorem poolReset_cfg (s : State) : (poolReset s).cfg = s.cfg := rfl
@[simp] theorem poolReset_inputs (s : State) : (poolReset s).inputs = s.inputs := rfl
@[simp] theorem poolReset_cmd (s : State) : (poolReset s).cmd = s.cmd := rfl
@[simp] theorem poolReset_pool (s : State) : (poolReset s).pool = Pool.empty := rfl
@[simp] theorem poolReset_inited (s : State) : (poolReset s).inited = s.inited := rfl
@[simp] theorem poolReset_busy (s : State) : (poolReset s).busy = s.busy := rfl
@[simp] theorem poolReset_seq (s : State) : (poolReset s).seq = s.seq := rfl
@[simp] theorem poolReset_result (s : State) : (poolReset s).result = s.result := rfl
@[simp] theorem poolReset_rspStatus (s : State) : (poolReset s).rspStatus = s.rspStatus := rfl
@[simp] theorem poolReset_rspIndex (s : State) : (poolReset s).rspIndex = s.rspIndex := rfl
@[simp] theorem poolReset_rspKeyoff (s : State) : (poolReset s).rspKeyoff = s.rspKeyoff := rfl
@[simp] theorem poolReset_rspValid (s : State) : (poolReset s).rspValid = s.rspValid := rfl
@[simp] theorem poolReset_pins (s : State) : (poolReset s).pins = s.pins := rfl
@[simp] theorem poolReset_tx (s : State) : (poolReset s).tx = s.tx := rfl
@[simp] theorem poolReset_chip (s : State) : (poolReset s).chip = s.chip := rfl
@[simp] theorem poolReset_log (s : State) : (poolReset s).log = s.log := rfl
@[simp] theorem poolReset_trace (s : State) : (poolReset s).trace = s.trace := rfl

/-! ### The register bus -/

/-- A phase of the bus touches the pins, the write in flight and the observer state, and nothing else. -/
theorem busAdvance_eq (s : State) : ∃ pins tx chip log trace,
    busAdvance s = { s with pins := pins, tx := tx, chip := chip, log := log, trace := trace } := by
  unfold busAdvance
  split
  · exact ⟨_, _, _, _, _, rfl⟩
  · exact ⟨_, _, _, _, _, rfl⟩
  · exact ⟨_, _, _, _, _, rfl⟩
  · exact ⟨_, _, _, _, _, rfl⟩

@[simp] theorem busAdvance_cfg (s : State) : (busAdvance s).cfg = s.cfg := by
  obtain ⟨_, _, _, _, _, h⟩ := busAdvance_eq s
  simp [h]
@[simp] theorem busAdvance_inputs (s : State) : (busAdvance s).inputs = s.inputs := by
  obtain ⟨_, _, _, _, _, h⟩ := busAdvance_eq s
  simp [h]
@[simp] theorem busAdvance_cmd (s : State) : (busAdvance s).cmd = s.cmd := by
  obtain ⟨_, _, _, _, _, h⟩ := busAdvance_eq s
  simp [h]
@[simp] theorem busAdvance_pool (s : State) : (busAdvance s).pool = s.pool := by
  obtain ⟨_, _, _, _, _, h⟩ := busAdvance_eq s
  simp [h]
@[simp] theorem busAdvance_inited (s : State) : (busAdvance s).inited = s.inited := by
  obtain ⟨_, _, _, _, _, h⟩ := busAdvance_eq s
  simp [h]
@[simp] theorem busAdvance_busy (s : State) : (busAdvance s).busy = s.busy := by
  obtain ⟨_, _, _, _, _, h⟩ := busAdvance_eq s
  simp [h]
@[simp] theorem busAdvance_seq (s : State) : (busAdvance s).seq = s.seq := by
  obtain ⟨_, _, _, _, _, h⟩ := busAdvance_eq s
  simp [h]
@[simp] theorem busAdvance_result (s : State) : (busAdvance s).result = s.result := by
  obtain ⟨_, _, _, _, _, h⟩ := busAdvance_eq s
  simp [h]
@[simp] theorem busAdvance_rspStatus (s : State) : (busAdvance s).rspStatus = s.rspStatus := by
  obtain ⟨_, _, _, _, _, h⟩ := busAdvance_eq s
  simp [h]
@[simp] theorem busAdvance_rspIndex (s : State) : (busAdvance s).rspIndex = s.rspIndex := by
  obtain ⟨_, _, _, _, _, h⟩ := busAdvance_eq s
  simp [h]
@[simp] theorem busAdvance_rspKeyoff (s : State) : (busAdvance s).rspKeyoff = s.rspKeyoff := by
  obtain ⟨_, _, _, _, _, h⟩ := busAdvance_eq s
  simp [h]
@[simp] theorem busAdvance_rspValid (s : State) : (busAdvance s).rspValid = s.rspValid := by
  obtain ⟨_, _, _, _, _, h⟩ := busAdvance_eq s
  simp [h]

@[simp] theorem finishWrite_cfg (s : State) : (finishWrite s).cfg = s.cfg := by simp [finishWrite]
@[simp] theorem finishWrite_inputs (s : State) : (finishWrite s).inputs = s.inputs := by simp [finishWrite]
@[simp] theorem finishWrite_cmd (s : State) : (finishWrite s).cmd = s.cmd := by simp [finishWrite]
@[simp] theorem finishWrite_pool (s : State) : (finishWrite s).pool = s.pool := by simp [finishWrite]
@[simp] theorem finishWrite_inited (s : State) : (finishWrite s).inited = s.inited := by simp [finishWrite]
@[simp] theorem finishWrite_busy (s : State) : (finishWrite s).busy = s.busy := by simp [finishWrite]
@[simp] theorem finishWrite_seq (s : State) : (finishWrite s).seq = s.seq := by simp [finishWrite]
@[simp] theorem finishWrite_result (s : State) : (finishWrite s).result = s.result := by simp [finishWrite]
@[simp] theorem finishWrite_rspStatus (s : State) : (finishWrite s).rspStatus = s.rspStatus := by simp [finishWrite]
@[simp] theorem finishWrite_rspIndex (s : State) : (finishWrite s).rspIndex = s.rspIndex := by simp [finishWrite]
@[simp] theorem finishWrite_rspKeyoff (s : State) : (finishWrite s).rspKeyoff = s.rspKeyoff := by simp [finishWrite]
@[simp] theorem finishWrite_rspValid (s : State) : (finishWrite s).rspValid = s.rspValid := by simp [finishWrite]

@[simp] theorem regWrite_cfg (w : RegWrite) (s : State) : (regWrite w s).cfg = s.cfg := by simp [regWrite]
@[simp] theorem regWrite_inputs (w : RegWrite) (s : State) : (regWrite w s).inputs = s.inputs := by simp [regWrite]
@[simp] theorem regWrite_cmd (w : RegWrite) (s : State) : (regWrite w s).cmd = s.cmd := by simp [regWrite]
@[simp] theorem regWrite_pool (w : RegWrite) (s : State) : (regWrite w s).pool = s.pool := by simp [regWrite]
@[simp] theorem regWrite_inited (w : RegWrite) (s : State) : (regWrite w s).inited = s.inited := by simp [regWrite]
@[simp] theorem regWrite_busy (w : RegWrite) (s : State) : (regWrite w s).busy = s.busy := by simp [regWrite]
@[simp] theorem regWrite_seq (w : RegWrite) (s : State) : (regWrite w s).seq = s.seq := by simp [regWrite]
@[simp] theorem regWrite_result (w : RegWrite) (s : State) : (regWrite w s).result = s.result := by simp [regWrite]
@[simp] theorem regWrite_rspStatus (w : RegWrite) (s : State) : (regWrite w s).rspStatus = s.rspStatus := by simp [regWrite]
@[simp] theorem regWrite_rspIndex (w : RegWrite) (s : State) : (regWrite w s).rspIndex = s.rspIndex := by simp [regWrite]
@[simp] theorem regWrite_rspKeyoff (w : RegWrite) (s : State) : (regWrite w s).rspKeyoff = s.rspKeyoff := by simp [regWrite]
@[simp] theorem regWrite_rspValid (w : RegWrite) (s : State) : (regWrite w s).rspValid = s.rspValid := by simp [regWrite]

@[simp] theorem regWrites_cfg (ws : List RegWrite) (s : State) : (regWrites ws s).cfg = s.cfg := by
  induction ws generalizing s with
  | nil => rfl
  | cons w ws ih => exact (ih (regWrite w s)).trans (regWrite_cfg w s)
@[simp] theorem regWrites_inputs (ws : List RegWrite) (s : State) : (regWrites ws s).inputs = s.inputs := by
  induction ws generalizing s with
  | nil => rfl
  | cons w ws ih => exact (ih (regWrite w s)).trans (regWrite_inputs w s)
@[simp] theorem regWrites_cmd (ws : List RegWrite) (s : State) : (regWrites ws s).cmd = s.cmd := by
  induction ws generalizing s with
  | nil => rfl
  | cons w ws ih => exact (ih (regWrite w s)).trans (regWrite_cmd w s)
@[simp] theorem regWrites_pool (ws : List RegWrite) (s : State) : (regWrites ws s).pool = s.pool := by
  induction ws generalizing s with
  | nil => rfl
  | cons w ws ih => exact (ih (regWrite w s)).trans (regWrite_pool w s)
@[simp] theorem regWrites_inited (ws : List RegWrite) (s : State) : (regWrites ws s).inited = s.inited := by
  induction ws generalizing s with
  | nil => rfl
  | cons w ws ih => exact (ih (regWrite w s)).trans (regWrite_inited w s)
@[simp] theorem regWrites_busy (ws : List RegWrite) (s : State) : (regWrites ws s).busy = s.busy := by
  induction ws generalizing s with
  | nil => rfl
  | cons w ws ih => exact (ih (regWrite w s)).trans (regWrite_busy w s)
@[simp] theorem regWrites_seq (ws : List RegWrite) (s : State) : (regWrites ws s).seq = s.seq := by
  induction ws generalizing s with
  | nil => rfl
  | cons w ws ih => exact (ih (regWrite w s)).trans (regWrite_seq w s)
@[simp] theorem regWrites_result (ws : List RegWrite) (s : State) : (regWrites ws s).result = s.result := by
  induction ws generalizing s with
  | nil => rfl
  | cons w ws ih => exact (ih (regWrite w s)).trans (regWrite_result w s)
@[simp] theorem regWrites_rspStatus (ws : List RegWrite) (s : State) : (regWrites ws s).rspStatus = s.rspStatus := by
  induction ws generalizing s with
  | nil => rfl
  | cons w ws ih => exact (ih (regWrite w s)).trans (regWrite_rspStatus w s)
@[simp] theorem regWrites_rspIndex (ws : List RegWrite) (s : State) : (regWrites ws s).rspIndex = s.rspIndex := by
  induction ws generalizing s with
  | nil => rfl
  | cons w ws ih => exact (ih (regWrite w s)).trans (regWrite_rspIndex w s)
@[simp] theorem regWrites_rspKeyoff (ws : List RegWrite) (s : State) : (regWrites ws s).rspKeyoff = s.rspKeyoff := by
  induction ws generalizing s with
  | nil => rfl
  | cons w ws ih => exact (ih (regWrite w s)).trans (regWrite_rspKeyoff w s)
@[simp] theorem regWrites_rspValid (ws : List RegWrite) (s : State) : (regWrites ws s).rspValid = s.rspValid := by
  induction ws generalizing s with
  | nil => rfl
  | cons w ws ih => exact (ih (regWrite w s)).trans (regWrite_rspValid w s)

@[simp] theorem applyVelocity_cfg (v : Velocity) (s : State) : (applyVelocity v s).cfg = s.cfg := regWrites_cfg _ s
@[simp] theorem applyVelocity_inputs (v : Velocity) (s : State) : (applyVelocity v s).inputs = s.inputs := regWrites_inputs _ s
@[simp] theorem applyVelocity_cmd (v : Velocity) (s : State) : (applyVelocity v s).cmd = s.cmd := regWrites_cmd _ s
@[simp] theorem applyVelocity_pool (v : Velocity) (s : State) : (applyVelocity v s).pool = s.pool := regWrites_pool _ s
@[simp] theorem applyVelocity_inited (v : Velocity) (s : State) : (applyVelocity v s).inited = s.inited := regWrites_inited _ s
@[simp] theorem applyVelocity_busy (v : Velocity) (s : State) : (applyVelocity v s).busy = s.busy := regWrites_busy _ s
@[simp] theorem applyVelocity_seq (v : Velocity) (s : State) : (applyVelocity v s).seq = s.seq := regWrites_seq _ s
@[simp] theorem applyVelocity_result (v : Velocity) (s : State) : (applyVelocity v s).result = s.result := regWrites_result _ s
@[simp] theorem applyVelocity_rspStatus (v : Velocity) (s : State) : (applyVelocity v s).rspStatus = s.rspStatus := regWrites_rspStatus _ s
@[simp] theorem applyVelocity_rspIndex (v : Velocity) (s : State) : (applyVelocity v s).rspIndex = s.rspIndex := regWrites_rspIndex _ s
@[simp] theorem applyVelocity_rspKeyoff (v : Velocity) (s : State) : (applyVelocity v s).rspKeyoff = s.rspKeyoff := regWrites_rspKeyoff _ s
@[simp] theorem applyVelocity_rspValid (v : Velocity) (s : State) : (applyVelocity v s).rspValid = s.rspValid := regWrites_rspValid _ s

@[simp] theorem playVoiceProgram_cfg (s : State) : (playVoiceProgram s).cfg = s.cfg := regWrites_cfg _ s
@[simp] theorem playVoiceProgram_inputs (s : State) : (playVoiceProgram s).inputs = s.inputs := regWrites_inputs _ s
@[simp] theorem playVoiceProgram_cmd (s : State) : (playVoiceProgram s).cmd = s.cmd := regWrites_cmd _ s
@[simp] theorem playVoiceProgram_pool (s : State) : (playVoiceProgram s).pool = s.pool := regWrites_pool _ s
@[simp] theorem playVoiceProgram_inited (s : State) : (playVoiceProgram s).inited = s.inited := regWrites_inited _ s
@[simp] theorem playVoiceProgram_busy (s : State) : (playVoiceProgram s).busy = s.busy := regWrites_busy _ s
@[simp] theorem playVoiceProgram_seq (s : State) : (playVoiceProgram s).seq = s.seq := regWrites_seq _ s
@[simp] theorem playVoiceProgram_result (s : State) : (playVoiceProgram s).result = s.result := regWrites_result _ s
@[simp] theorem playVoiceProgram_rspStatus (s : State) : (playVoiceProgram s).rspStatus = s.rspStatus := regWrites_rspStatus _ s
@[simp] theorem playVoiceProgram_rspIndex (s : State) : (playVoiceProgram s).rspIndex = s.rspIndex := regWrites_rspIndex _ s
@[simp] theorem playVoiceProgram_rspKeyoff (s : State) : (playVoiceProgram s).rspKeyoff = s.rspKeyoff := regWrites_rspKeyoff _ s
@[simp] theorem playVoiceProgram_rspValid (s : State) : (playVoiceProgram s).rspValid = s.rspValid := regWrites_rspValid _ s

end Sys2Proof.Machine
end

