-- ==== Sys2Proof/Laws/Bus.lean ====
section
/-! SUPPORT. What a register write, and a list of them, does from a state with no write in flight (R160 to
R172): the specification lemma `regWrites_wrote`, which callers cite instead of unfolding the phases. -/

namespace Sys2Proof.Machine

/-- With no write in flight there is nothing to complete. -/
theorem finishWrite_of_none (s : State) (h : s.tx = .none) : finishWrite s = s := by
  have h1 : busAdvance s = s := by simp [busAdvance, h]
  simp [finishWrite, h1]

/-- Completing leaves no write in flight (R169). -/
@[simp] theorem finishWrite_tx (s : State) : (finishWrite s).tx = .none := by
  unfold finishWrite
  cases h : s.tx with
  | none => simp [busAdvance, h]
  | addr w => simp [busAdvance, h]
  | data w => simp [busAdvance, h]
  | recover w => simp [busAdvance, h]

/-- No write is in flight after `REGWRITE`. -/
@[simp] theorem regWrite_tx (w : RegWrite) (s : State) : (regWrite w s).tx = .none := finishWrite_tx _

/-- `REGWRITE` from rest, in full: the thirteen events of R170, the log entry and the image (R172). -/
theorem regWrite_of_none (w : RegWrite) (s : State) (h : s.tx = .none) :
    regWrite w s =
      { s with
        pins := pinsAfter [w] s.pins, trace := s.trace ++ writeTrace s.cfg.tSettle w
        log := s.log ++ [w], chip := chipWrite s.chip w } := by
  obtain ⟨cfg, inputs, cmd, pool, inited, busy, seq, result, rs, ri, rk, rv, pins, tx, chip, log, trace⟩ := s
  cases h
  simp [regWrite, finishWrite, busAdvance, emit, addressPhase, dataPhase, recoverPhase, writeTrace, pinsAfter,
    PinEvent.apply]

/-- No write is in flight after a list of writes that starts from rest. -/
theorem regWrites_tx (ws : List RegWrite) (s : State) (h : s.tx = .none) : (regWrites ws s).tx = .none := by
  induction ws generalizing s with
  | nil => exact h
  | cons w ws ih => exact ih (regWrite w s) (regWrite_tx w s)

/-- The pins after a list of writes are those after its last one. -/
theorem pinsAfter_cons (w : RegWrite) (ws : List RegWrite) (x : Pins) :
    pinsAfter ws (pinsAfter [w] x) = pinsAfter (w :: ws) x := by
  cases h : ws.getLast? with
  | none =>
    have : ws = [] := by simpa using h
    subst this
    rfl
  | some v =>
    have hne : ws ≠ [] := by
      intro h'
      simp [h'] at h
    simp [pinsAfter, List.getLast?_cons, h]

/-- A list of writes from rest, in full (R69). -/
theorem regWrites_of_none (ws : List RegWrite) (s : State) (h : s.tx = .none) :
    regWrites ws s =
      { s with
        pins := pinsAfter ws s.pins, trace := s.trace ++ ws.flatMap (writeTrace s.cfg.tSettle)
        log := s.log ++ ws, chip := ws.foldl chipWrite s.chip } := by
  induction ws generalizing s with
  | nil => simp [regWrites, pinsAfter]
  | cons w ws ih =>
    have step : regWrites (w :: ws) s = regWrites ws (regWrite w s) := rfl
    rw [step, ih _ (regWrite_tx w s), regWrite_of_none w s h]
    simp [pinsAfter_cons, List.append_assoc]

/-- One location after a list of writes: the last of them that goes there, else what was there (R33). -/
theorem read_foldl_chipWrite (ws : List RegWrite) (m : Memory) (p : Port) (a : Byte) :
    Memory.read (ws.foldl chipWrite m) (chipKey p a) =
      (lastWritten ws p a).or (Memory.read m (chipKey p a)) := by
  induction ws generalizing m with
  | nil => simp [lastWritten]
  | cons w ws ih =>
    rw [List.foldl_cons, ih, read_chipWrite]
    unfold lastWritten
    rw [List.reverse_cons, List.find?_append]
    cases List.find? (fun w => w.port == p && w.address == a) ws.reverse with
    | some v => simp
    | none =>
      by_cases hw : w.port = p ∧ w.address = a
      · simp [hw]
      · have : (w.port == p && w.address == a) = false := by simpa using hw
        simp [hw, this]

/-- The specification of a list of register writes: exactly those writes were issued, and every field before
the pins is as it was (the field lemmas of Laws/State.lean). -/
theorem regWrites_wrote (ws : List RegWrite) (s : State) (h : s.tx = .none) : Wrote ws s (regWrites ws s) := by
  rw [regWrites_of_none ws s h]
  exact ⟨rfl, rfl, rfl, h, fun p a => read_foldl_chipWrite ws s.chip p a⟩

/-- One register write is a list of one. -/
theorem regWrite_wrote (w : RegWrite) (s : State) (h : s.tx = .none) : Wrote [w] s (regWrite w s) :=
  regWrites_wrote [w] s h

/-- `Wrote` looks at the start only at the parameters and at what is at or beyond the pins. -/
theorem wrote_from {ws : List RegWrite} {s s' t : State} (h : Wrote ws s' t) (hc : s'.cfg = s.cfg)
    (hb : SameBus s s') : Wrote ws s t := by
  obtain ⟨hl, ht, hp, hx, hm⟩ := h
  obtain ⟨bp, _, bm, bl, bt⟩ := hb
  refine ⟨by rw [hl, bl], by rw [ht, bt, hc], by rw [hp, bp], hx, fun p a => ?_⟩
  rw [hm p a, State.chipAt, State.chipAt, bm]

/-- `Wrote` looks at the end only at what is at or beyond the pins. -/
theorem wrote_to {ws : List RegWrite} {s t t' : State} (h : Wrote ws s t) (hb : SameBus t t') : Wrote ws s t' := by
  obtain ⟨hl, ht, hp, hx, hm⟩ := h
  obtain ⟨bp, bx, bm, bl, bt⟩ := hb
  refine ⟨by rw [bl, hl], by rw [bt, ht], by rw [bp, hp], by rw [bx, hx], fun p a => ?_⟩
  rw [← hm p a, State.chipAt, State.chipAt, bm]

/-- Ending a command leaves everything at and beyond the pins. -/
theorem finish_sameBus (st : Status) (index keyoff : BitVec 3) (t : State) :
    SameBus t (finish st index keyoff t) := ⟨rfl, rfl, rfl, rfl, rfl⟩

/-- Ending a command latches its answer (R28). -/
theorem finish_ended (st : Status) (index keyoff : BitVec 3) (t : State) :
    Ended st index keyoff (finish st index keyoff t) := ⟨rfl, rfl, rfl, rfl, rfl, rfl, rfl⟩

/-- A list of register writes leaves the parameters, the host's side of the port and the operands. -/
theorem regWrites_sameFront (ws : List RegWrite) (s : State) : SameFront s (regWrites ws s) :=
  ⟨regWrites_cfg ws s, regWrites_inputs ws s, regWrites_cmd ws s⟩

/-- A list of register writes leaves the response latches. -/
theorem regWrites_sameResponse (ws : List RegWrite) (s : State) : SameResponse s (regWrites ws s) :=
  ⟨regWrites_rspStatus ws s, regWrites_rspIndex ws s, regWrites_rspKeyoff ws s, regWrites_rspValid ws s⟩

/-- A list of register writes leaves the flags, the sequencer and DP's returned value. -/
theorem regWrites_sameControl (ws : List RegWrite) (s : State) : SameControl s (regWrites ws s) :=
  ⟨regWrites_inited ws s, regWrites_busy ws s, regWrites_seq ws s, regWrites_result ws s⟩

/-- Two lists of writes one after the other are one list. -/
theorem regWrites_append (vs ws : List RegWrite) (s : State) :
    regWrites ws (regWrites vs s) = regWrites (vs ++ ws) s := by
  simp [regWrites, List.foldl_append]

/-- Writes of an empty list change nothing. -/
@[simp] theorem regWrites_nil (s : State) : regWrites [] s = s := rfl

/-- The events of one write keep R169: bus and selects change only between strobes. -/
theorem writeTrace_disciplined (t : Nat) (w : RegWrite) (rest : List PinEvent) :
    disciplined .deasserted (writeTrace t w ++ rest) = disciplined .deasserted rest := by
  simp [writeTrace, addressPhase, dataPhase, recoverPhase, disciplined]

/-- A phase of the bus looks at nothing before the pins but `T_SETTLE`. -/
theorem busAdvance_congr {s u : State} (hc : u.cfg = s.cfg) (h : SameBus s u) :
    SameBus (busAdvance s) (busAdvance u) := by
  obtain ⟨h1, h2, h3, h4, h5⟩ := h
  unfold busAdvance
  cases hx : s.tx <;> simp [SameBus, emit, h1, h2, h3, h4, h5, hx, hc]

/-- Completing a write looks at nothing before the pins. -/
theorem finishWrite_congr {s u : State} (hc : u.cfg = s.cfg) (h : SameBus s u) :
    SameBus (finishWrite s) (finishWrite u) :=
  busAdvance_congr (by simp [hc]) (busAdvance_congr (by simp [hc]) (busAdvance_congr hc h))

/-- A register write looks at nothing before the pins. -/
theorem regWrite_congr (w : RegWrite) {s u : State} (hc : u.cfg = s.cfg) (h : SameBus s u) :
    SameBus (regWrite w s) (regWrite w u) := by
  obtain ⟨h1, _, h3, h4, h5⟩ := finishWrite_congr hc h
  exact finishWrite_congr (by simp [hc]) ⟨h1, rfl, h3, h4, h5⟩

/-- Nor does a list of them. -/
theorem regWrites_congr (ws : List RegWrite) {s u : State} (hc : u.cfg = s.cfg) (h : SameBus s u) :
    SameBus (regWrites ws s) (regWrites ws u) := by
  induction ws generalizing s u with
  | nil => exact h
  | cons w ws ih => exact ih (by simp [hc]) (regWrite_congr w hc h)

/-- Two states that agree in every field are one. -/
theorem state_eq {s t : State} (hf : SameFront s t) (hp : t.pool = s.pool) (hc : SameControl s t)
    (hr : SameResponse s t) (hb : SameBus s t) : s = t := by
  obtain ⟨cfg, inputs, cmd, pool, inited, busy, seq, result, rs, ri, rk, rv, pins, tx, chip, log, trace⟩ := s
  cases t
  simp_all [SameFront, SameControl, SameResponse, SameBus]

end Sys2Proof.Machine
end

