-- ==== Sys2Proof/Laws/Commands.lean ====
section
/-! SUPPORT. All that a host command can answer: one lemma each, for callers to cite instead of unfolding the
pseudocode, and what a release or a scan can answer in any pool. -/

namespace Sys2Proof.Machine

/-- The writes of a `KEY_ON` that has been given slot `i` with the bytes `(high, low)` (R186). -/
def keyOnWrites (c : Params) (i : Fin 6) (high low : Byte) (vel : Velocity) : List RegWrite :=
  [freqHiWrite i high, freqLoWrite i low] ++ velocityWrites c vel ++ [keyOnWrite c (keyOffsetOf (indexOf i))]

/-- `ENCODE` gives no bytes exactly for a note above 131 (R121). -/
theorem encodeNote_eq_none (c : Params) (n : Note) : encodeNote c n = none ↔ outOfRange n = true := by
  unfold encodeNote
  split <;> simp_all

/-- All that `KEY_ON` can answer (R186): a failed check, a full pool, or the lowest inactive slot sounded. -/
theorem execKeyOn_cases (n : Note) (v : Velocity) (s : State) :
    (∃ st, keyOnCheck s n = some st ∧ execKeyOn n v s = .next (raise st s)) ∨
    (keyOnCheck s n = none ∧ s.pool.Full ∧ execKeyOn n v s = .next (raise .resourceExhausted s)) ∨
    (keyOnCheck s n = none ∧ ∃ i high low, s.pool.LowestFree i ∧ encodeNote s.cfg n = some (high, low) ∧
      execKeyOn n v s = .next (finish .ok (indexOf i) (keyOffsetOf (indexOf i))
        (regWrites (keyOnWrites s.cfg i high low v)
          { s with pool := Pool.put s.pool i (allocatedSlot i n v high low) }))) := by
  unfold execKeyOn
  cases hc : keyOnCheck s n with
  | some st => exact .inl ⟨st, rfl, rfl⟩
  | none =>
    rcases allocate_cases s.cfg n v s.pool with ⟨i, high, low, hf, he, ha⟩ | ⟨hf, ha⟩ | ⟨_, he, _⟩
    · refine .inr (.inr ⟨rfl, i, high, low, hf, he, ?_⟩)
      have hslot : Pool.slot (Pool.put s.pool i (allocatedSlot i n v high low)) i = allocatedSlot i n v high low := by
        simp [pool_put_get]
      simp only [ha]
      rw [hslot]
      simp only [allocatedSlot, readField, applyVelocity, regWrite_cfg, regWrites_cfg]
      simp [keyOnWrites, regWrites, List.foldl_append]
    · exact .inr (.inl ⟨rfl, hf, by simp only [ha]⟩)
    · rw [encodeNote_eq_none] at he
      unfold keyOnCheck at hc
      split at hc
      · cases hc
      · simp at hc

/-- A scan for a note stops only on an `UNSET` note (R23). -/
theorem scanNote_error (note : Note) (pool : Pool) (is : List (Fin 6)) (f : Fault)
    (h : scanNote note pool is = .error f) : ∃ i, f = .unsetField i .note := by
  induction is with
  | nil => simp [scanNote] at h
  | cons i is ih =>
    unfold scanNote at h
    split at h
    · cases hn : (pool.slot i).note with
      | none =>
        simp only [hn, readField] at h
        exact ⟨i, (Except.error.inj h).symm⟩
      | some m =>
        simp only [hn, readField] at h
        split at h
        · simp at h
        · exact ih h
    · exact ih h

/-- `RELEASE` stops only on an `UNSET` field (R23), in any pool. -/
theorem release_error (note : Note) (pool : Pool) (f : Fault) (h : release note pool = .error f) :
    ∃ i field, f = .unsetField i field := by
  unfold release at h
  cases hs : scanNote note pool scanOrder with
  | error g =>
    simp only [hs] at h
    obtain ⟨i, hi⟩ := scanNote_error note pool _ g hs
    exact ⟨i, _, (Except.error.inj h) ▸ hi⟩
  | ok m =>
    cases m with
    | none => simp [hs] at h
    | some i =>
      cases hx : (pool.slot i).index with
      | none =>
        simp only [hs, hx, readField] at h
        exact ⟨i, _, (Except.error.inj h).symm⟩
      | some x => simp [hs, hx, readField] at h

/-- In any pool, a scan finds only active slots. -/
theorem scanNote_active (note : Note) (pool : Pool) (is : List (Fin 6)) (i : Fin 6)
    (h : scanNote note pool is = .ok (some i)) : (pool.slot i).active = true := by
  induction is with
  | nil => simp [scanNote] at h
  | cons j is ih =>
    unfold scanNote at h
    split at h
    · rename_i ha
      cases hn : (pool.slot j).note with
      | none => simp [hn, readField] at h
      | some m =>
        simp only [hn, readField] at h
        split at h
        · simp only [Except.ok.injEq, Option.some.injEq] at h
          exact h ▸ ha
        · exact ih h
    · exact ih h

/-- In any pool, a `RELEASE` that frees a slot resets one active slot to the sentinel (R144). -/
theorem release_keyOffset (note : Note) (pool pool' : Pool) (k : BitVec 3)
    (h : release note pool = .ok (.keyOffset k pool')) :
    ∃ i index, (pool.slot i).active = true ∧ (pool.slot i).index = some index ∧ k = keyOffsetOf index ∧
      pool' = Pool.put pool i Slot.unset := by
  unfold release at h
  cases hs : scanNote note pool scanOrder with
  | error g => simp [hs] at h
  | ok m =>
    cases m with
    | none => simp [hs] at h
    | some i =>
      cases hx : (pool.slot i).index with
      | none => simp [hs, hx, readField] at h
      | some x =>
        simp only [hs, hx, readField, Except.ok.injEq, ReleaseResult.keyOffset.injEq] at h
        exact ⟨i, x, scanNote_active note pool _ i hs, hx, h.1.symm, h.2.symm⟩

/-- All that `KEY_OFF` can answer (R193): the failed check, a stop on an `UNSET` field, `NOT_FOUND`, or the
released voice silenced. -/
theorem execKeyOff_cases (n : Note) (s : State) :
    (s.inited = false ∧ execKeyOff n s = .next (raise .notInitialised s)) ∨
    (s.inited = true ∧ ∃ f, release n s.pool = .error f ∧ execKeyOff n s = .fault f) ∨
    (s.inited = true ∧ release n s.pool = .ok .notFound ∧ execKeyOff n s = .next (raise .notFound s)) ∨
    (s.inited = true ∧ ∃ k pool, release n s.pool = .ok (.keyOffset k pool) ∧
      execKeyOff n s = .next (finish .ok 0 k (regWrite (keyOffWrite s.cfg k) { s with pool := pool }))) := by
  unfold execKeyOff keyOffCheck
  cases hi : s.inited with
  | false => exact .inl ⟨rfl, rfl⟩
  | true =>
    cases hr : release n s.pool with
    | error f => exact .inr (.inl ⟨rfl, f, rfl, rfl⟩)
    | ok r =>
      cases r with
      | notFound => exact .inr (.inr (.inl ⟨rfl, rfl, rfl⟩))
      | keyOffset k pool => exact .inr (.inr (.inr ⟨rfl, k, pool, rfl, rfl⟩))

end Sys2Proof.Machine
end

