-- ==== Sys2Proof/Laws/Encoder.lean ====
section
/-! SUPPORT. The halving loop of R125: its value is the closed form of R128, with the least number of
halvings that brings the frequency below 2048. -/

namespace Sys2Proof.Machine

/-- `k` halvings bring `num / den` below 2048, and no fewer do (R125). -/
def LeastHalvings (num den k : Nat) : Prop :=
  num < fnumLimit * (den * 2 ^ k) ∧ ∀ j < k, fnumLimit * (den * 2 ^ j) ≤ num

/-- With enough fuel the loop does the least number of halvings, doubling the denominator at each (R125). -/
theorem normalise_spec (fuel num den block : Nat) (h : num < fnumLimit * (den * 2 ^ fuel)) :
    ∃ k, LeastHalvings num den k ∧ normalise fuel num den block = (num, den * 2 ^ k, block + k) := by
  induction fuel generalizing den block with
  | zero => exact ⟨0, ⟨by simpa using h, by simp⟩, by simp [normalise]⟩
  | succ fuel ih =>
    unfold normalise
    split
    · rename_i hge
      have h' : num < fnumLimit * (2 * den * 2 ^ fuel) := by
        rw [pow_succ] at h
        calc num < _ := h
          _ = _ := by ring
      obtain ⟨k, ⟨hlt, hall⟩, heq⟩ := ih (2 * den) (block + 1) h'
      refine ⟨k + 1, ⟨?_, fun j hj => ?_⟩, ?_⟩
      · calc num < _ := hlt
          _ = _ := by ring
      · cases j with
        | zero => simpa using hge
        | succ j =>
          have := hall j (by omega)
          calc fnumLimit * (den * 2 ^ (j + 1)) = fnumLimit * (2 * den * 2 ^ j) := by ring
            _ ≤ num := this
      · rw [heq]
        refine Prod.ext rfl (Prod.ext ?_ ?_)
        · show 2 * den * 2 ^ k = den * 2 ^ (k + 1)
          ring
        · show block + 1 + k = block + (k + 1)
          omega
    · rename_i hlt
      exact ⟨0, ⟨by simpa using Nat.lt_of_not_le hlt, by simp⟩, by simp⟩

/-- The fuel is enough: the loop ends for every frequency with a positive denominator (R125). -/
theorem halvingFuel_enough (num den : Nat) (h : 0 < den) : num < fnumLimit * (den * 2 ^ halvingFuel num den) := by
  have hpos : 0 < fnumLimit * den := Nat.mul_pos (by decide) h
  have h1 : num < fnumLimit * den * (num / (fnumLimit * den) + 1) := Nat.lt_mul_div_succ num hpos
  have h2 : num / (fnumLimit * den) + 1 ≤ 2 ^ halvingFuel num den := Nat.lt_two_pow_self.le
  calc num < fnumLimit * den * (num / (fnumLimit * den) + 1) := h1
    _ ≤ fnumLimit * den * 2 ^ halvingFuel num den := Nat.mul_le_mul_left _ h2
    _ = _ := by ring

/-- The least number of halvings is unique. -/
theorem leastHalvings_unique (num den k l : Nat) (hk : LeastHalvings num den k) (hl : LeastHalvings num den l) :
    k = l := by
  rcases lt_trichotomy k l with h | h | h
  · exact absurd (hl.2 k h) (not_le.2 hk.1)
  · exact h
  · exact absurd (hk.2 l h) (not_le.2 hl.1)

/-- R128's closed form of the frequency code, for a table with a positive denominator. -/
theorem frequencyCode_spec (c : Params) (n : Note) (h : 0 < c.baseDen) :
    ∃ k, LeastHalvings (scaledFrequency c n).1 (scaledFrequency c n).2 k ∧
      frequencyCode c n = ((scaledFrequency c n).1 / ((scaledFrequency c n).2 * 2 ^ k), blockInit + k) := by
  have hd : 0 < (scaledFrequency c n).2 := Nat.mul_pos h (by decide)
  obtain ⟨k, hk, he⟩ := normalise_spec _ _ _ blockInit (halvingFuel_enough (scaledFrequency c n).1 _ hd)
  exact ⟨k, hk, by simp [frequencyCode, he]⟩

end Sys2Proof.Machine
end

