-- ==== Sys2Proof/Laws/Encoding.lean ====
section
/-! SUPPORT. The fields of a word built from its fields, for both formats (R91, R96). -/

namespace Sys2Proof

/-- Bit `k` of a command word. -/
theorem commandWord_getLsbD (op : BitVec 2) (note : Note) (vel : Velocity) (k : Nat) :
    (commandWord op note vel).getLsbD k =
      if k < 7 then vel.getLsbD k else if k - 7 < 8 then note.getLsbD (k - 7) else op.getLsbD (k - 7 - 8) := by
  show BitVec.getLsbD (w := 2 + 8 + 7) (op ++ note ++ vel) k = _
  simp only [BitVec.getLsbD_append]

/-- The `op` of a command word is the field it was built from. -/
@[simp] theorem opField_commandWord (op : BitVec 2) (note : Note) (vel : Velocity) :
    opField (commandWord op note vel) = op := by
  unfold opField
  ext i hi
  have h1 : ¬ 15 + i < 7 := by omega
  have h2 : ¬ 15 + i - 7 < 8 := by omega
  have h3 : 15 + i - 7 - 8 = i := by omega
  simp only [BitVec.getElem_extractLsb', commandWord_getLsbD, h1, h2, h3, if_false]
  exact BitVec.getLsbD_eq_getElem hi

/-- The `note` of a command word is the field it was built from. -/
@[simp] theorem noteField_commandWord (op : BitVec 2) (note : Note) (vel : Velocity) :
    noteField (commandWord op note vel) = note := by
  unfold noteField
  ext i hi
  have h1 : ¬ 7 + i < 7 := by omega
  have h2 : 7 + i - 7 = i := by omega
  simp only [BitVec.getElem_extractLsb', commandWord_getLsbD, h1, h2, hi, if_false, if_true]
  exact BitVec.getLsbD_eq_getElem hi

/-- The `vel` of a command word is the field it was built from. -/
@[simp] theorem velField_commandWord (op : BitVec 2) (note : Note) (vel : Velocity) :
    velField (commandWord op note vel) = vel := by
  unfold velField
  ext i hi
  have h1 : 0 + i = i := by omega
  simp only [BitVec.getElem_extractLsb', commandWord_getLsbD, h1, hi, if_true]
  exact BitVec.getLsbD_eq_getElem hi

/-- Bit `k` of a bus word. -/
theorem busWord_getLsbD (w : RegWrite) (k : Nat) :
    (busWord w).getLsbD k =
      if k < 8 then w.data.getLsbD k else if k - 8 < 8 then w.address.getLsbD (k - 8)
      else w.port.getLsbD (k - 8 - 8) := by
  show BitVec.getLsbD (w := 1 + 8 + 8) (w.port ++ w.address ++ w.data) k = _
  simp only [BitVec.getLsbD_append]

/-- The `port` of a bus word is the field it was built from. -/
@[simp] theorem busPort_busWord (w : RegWrite) : busPort (busWord w) = w.port := by
  unfold busPort
  ext i hi
  have h1 : ¬ 16 + i < 8 := by omega
  have h2 : ¬ 16 + i - 8 < 8 := by omega
  have h3 : 16 + i - 8 - 8 = i := by omega
  simp only [BitVec.getElem_extractLsb', busWord_getLsbD, h1, h2, h3, if_false]
  exact BitVec.getLsbD_eq_getElem hi

/-- The `address` of a bus word is the field it was built from. -/
@[simp] theorem busAddress_busWord (w : RegWrite) : busAddress (busWord w) = w.address := by
  unfold busAddress
  ext i hi
  have h1 : ¬ 8 + i < 8 := by omega
  have h2 : 8 + i - 8 = i := by omega
  simp only [BitVec.getElem_extractLsb', busWord_getLsbD, h1, h2, hi, if_false, if_true]
  exact BitVec.getLsbD_eq_getElem hi

/-- The `data` of a bus word is the field it was built from. -/
@[simp] theorem busData_busWord (w : RegWrite) : busData (busWord w) = w.data := by
  unfold busData
  ext i hi
  have h1 : 0 + i = i := by omega
  simp only [BitVec.getElem_extractLsb', busWord_getLsbD, h1, hi, if_true]
  exact BitVec.getLsbD_eq_getElem hi

end Sys2Proof
end

