-- ==== Sys2Proof/Laws/PerInstr.lean ====
section
/-! SUPPORT. The per-instruction family `Format`: a row of format H encodes to a word with its `op` in bits
16:15, a row of format B to the word of its register write, a row of format I to none (R90, R94, R96). -/

namespace Sys2Proof.Laws.Format

open Sys2Proof

/-- The formats of R90. -/
inductive Kind where
  /-- A host command with its `op`. -/
  | host (op : BitVec 2)
  /-- A bus write. -/
  | bus
  /-- An internal operation. -/
  | internal
  deriving DecidableEq, Repr

/-- The format each row of the opcode table gives. -/
def kind : Instr → Kind
  | .init => .host 0
  | .keyOn _ _ => .host 1
  | .keyOff _ => .host 2
  | .reservedOp3 => .host 3
  | .wFnumHi _ _ _ _ | .wFnumLo _ _ _ | .wKeyOn _ | .wKeyOff _ | .wTl _ _ _ _ | .wLfo _ _ | .wMode _ _ => .bus
  | .wDac _ _ | .wOpparam _ _ _ _ | .wFbAlg _ _ _ | .wPan _ _ _ => .bus
  | .encode _ | .allocate _ _ | .release _ | .poolReset | .regwrite _ _ _ | .velocity _ | .voiceProgram => .internal

/-- What a row of each format encodes to, whatever the parameters. -/
def Statement (i : Instr) : Prop :=
  ∀ c : Params,
    match kind i with
    | .host op => ∃ w, encode c i = some w ∧ opField w = op
    | .bus => ∃ w, busWrite c i = some w ∧ encode c i = some (busWord w)
    | .internal => encode c i = none

theorem init : Statement .init := fun _ => ⟨_, rfl, opField_commandWord _ _ _⟩
theorem keyOn (note : Note) (vel : Velocity) : Statement (.keyOn note vel) :=
  fun _ => ⟨_, rfl, opField_commandWord _ _ _⟩
theorem keyOff (note : Note) : Statement (.keyOff note) := fun _ => ⟨_, rfl, opField_commandWord _ _ _⟩
theorem reservedOp3 : Statement .reservedOp3 := fun _ => ⟨_, rfl, opField_commandWord _ _ _⟩
theorem wFnumHi (port : Port) (slot : BitVec 2) (block fnumHi : BitVec 3) :
    Statement (.wFnumHi port slot block fnumHi) := fun _ => ⟨_, rfl, rfl⟩
theorem wFnumLo (port : Port) (slot : BitVec 2) (fnumLo : Byte) : Statement (.wFnumLo port slot fnumLo) :=
  fun _ => ⟨_, rfl, rfl⟩
theorem wKeyOn (key : BitVec 3) : Statement (.wKeyOn key) := fun _ => ⟨_, rfl, rfl⟩
theorem wKeyOff (key : BitVec 3) : Statement (.wKeyOff key) := fun _ => ⟨_, rfl, rfl⟩
theorem wTl (port : Port) (op : Operator) (slot : BitVec 2) (att : Byte) : Statement (.wTl port op slot att) :=
  fun _ => ⟨_, rfl, rfl⟩
theorem wLfo (port : Port) (data : Byte) : Statement (.wLfo port data) := fun _ => ⟨_, rfl, rfl⟩
theorem wMode (port : Port) (data : Byte) : Statement (.wMode port data) := fun _ => ⟨_, rfl, rfl⟩
theorem wDac (port : Port) (data : Byte) : Statement (.wDac port data) := fun _ => ⟨_, rfl, rfl⟩
theorem wOpparam (port : Port) (group : BitVec 6) (slot : BitVec 2) (data : Byte) :
    Statement (.wOpparam port group slot data) := fun _ => ⟨_, rfl, rfl⟩
theorem wFbAlg (port : Port) (slot : BitVec 2) (data : Byte) : Statement (.wFbAlg port slot data) :=
  fun _ => ⟨_, rfl, rfl⟩
theorem wPan (port : Port) (slot : BitVec 2) (data : Byte) : Statement (.wPan port slot data) :=
  fun _ => ⟨_, rfl, rfl⟩
theorem encode (noteIndex : Note) : Statement (.encode noteIndex) := fun _ => rfl
theorem allocate (note : Note) (velocity : Velocity) : Statement (.allocate note velocity) := fun _ => rfl
theorem release (note : Note) : Statement (.release note) := fun _ => rfl
theorem poolReset : Statement .poolReset := fun _ => rfl
theorem regwrite (address data : Byte) (port : Port) : Statement (.regwrite address data port) := fun _ => rfl
theorem velocity (value : Velocity) : Statement (.velocity value) := fun _ => rfl
theorem voiceProgram : Statement .voiceProgram := fun _ => rfl

end Sys2Proof.Laws.Format
end

