-- ==== Sys2Proof/Laws/Step.lean ====
section
/-! SUPPORT. What one step can do, said once: `step_cases` for the step, `exec_issued` and `advance_issued` for
the register writes an operation or a sequencer row issues. -/

namespace Sys2Proof.Machine

/-- All that a step can do (R229): the reset input, a bus phase, a sequencer row, a command dropped in reset, a
command run, or waiting. -/
theorem step_cases {s t : State} (h : step s = .next t) :
    (∃ l rest, s.inputs = .resetInput l :: rest ∧ t = hardwareReset l rest s) ∨
    (s.tx ≠ .none ∧ t = busAdvance s) ∨
    (s.tx = .none ∧ s.busy = true ∧ advance s = .next t) ∨
    (s.tx = .none ∧ s.busy = false ∧ s.pins.reset = .asserted ∧
      ∃ w rest, s.inputs = .command w :: rest ∧ t = { s with inputs := rest, rspValid := false }) ∨
    (s.tx = .none ∧ s.busy = false ∧ s.pins.reset = .deasserted ∧
      ∃ w rest, s.inputs = .command w :: rest ∧
        exec (decodeHost w) (accept (opField w) (noteField w) (velField w) rest s) = .next t) ∨
    (s.tx = .none ∧ s.busy = false ∧ s.inputs = [] ∧ t = { s with rspValid := false }) := by
  have hrun : ∀ hn : (∀ l rest, s.inputs ≠ .resetInput l :: rest), runningStep s = .next t →
      (s.tx ≠ .none ∧ t = busAdvance s) ∨ (s.tx = .none ∧ s.busy = true ∧ advance s = .next t) ∨
      (s.tx = .none ∧ s.busy = false ∧ idleStep s = .next t) := by
    intro _ h
    unfold runningStep at h
    split at h
    · rename_i htx
      exact .inl ⟨htx, (Host.Outcome.next.inj h).symm⟩
    rename_i htx
    replace htx : s.tx = .none := by simpa using htx
    split at h
    · rename_i hb
      exact .inr (.inl ⟨htx, hb, h⟩)
    · rename_i hb
      exact .inr (.inr ⟨htx, by simpa using hb, h⟩)
  unfold step blockStep at h
  match hin : s.inputs with
  | .resetInput l :: rest =>
    simp only [hin] at h
    exact .inl ⟨l, rest, rfl, (Host.Outcome.next.inj h).symm⟩
  | .command w :: rest =>
    simp only [hin] at h
    rcases hrun (by simp [hin]) h with h' | h' | ⟨htx, hb, h'⟩
    · exact .inr (.inl h')
    · exact .inr (.inr (.inl h'))
    unfold idleStep at h'
    simp only [hin] at h'
    cases hr : s.pins.reset with
    | asserted =>
      simp only [hr, if_true] at h'
      exact .inr (.inr (.inr (.inl ⟨htx, hb, rfl, w, rest, rfl, (Host.Outcome.next.inj h').symm⟩)))
    | deasserted =>
      simp only [hr, reduceCtorEq, if_false] at h'
      exact .inr (.inr (.inr (.inr (.inl ⟨htx, hb, rfl, w, rest, rfl, h'⟩))))
  | [] =>
    simp only [hin] at h
    rcases hrun (by simp [hin]) h with h' | h' | ⟨htx, hb, h'⟩
    · exact .inr (.inl h')
    · exact .inr (.inr (.inl h'))
    unfold idleStep at h'
    simp only [hin] at h'
    exact .inr (.inr (.inr (.inr (.inr ⟨htx, hb, rfl, (Host.Outcome.next.inj h').symm⟩))))

/-- From `s`, with no write in flight, to `t` the writes `ws` were issued, and every part at and beyond the
pins is what they make it; the parameters and the host's side of the port are as they were. -/
def Issued (ws : List RegWrite) (s t : State) : Prop :=
  t.cfg = s.cfg ∧ t.inputs = s.inputs ∧ t.tx = .none ∧ t.pins = pinsAfter ws s.pins ∧
    t.trace = s.trace ++ ws.flatMap (writeTrace s.cfg.tSettle) ∧ t.log = s.log ++ ws ∧
    t.chip = ws.foldl chipWrite s.chip

/-- A write the block itself issues: R34's key, frequency and Total-Level registers, or the voice program. -/
def Documented (c : Params) (w : RegWrite) : Prop :=
  w.address = 0x28 ∨ (0xA0 ≤ w.address.toNat ∧ w.address.toNat ≤ 0xA2) ∨
    (0xA4 ≤ w.address.toNat ∧ w.address.toNat ≤ 0xA6) ∨
    (∃ op, ∃ n < 3, w.address = c.tl op + BitVec.ofNat 8 n) ∨ w ∈ c.voiceProgram

/-- A list of writes issues itself. -/
theorem regWrites_issued (ws : List RegWrite) (s : State) (h : s.tx = .none) : Issued ws s (regWrites ws s) := by
  rw [regWrites_of_none ws s h]
  exact ⟨rfl, rfl, h, rfl, rfl, rfl, rfl⟩

/-- One write issues itself. -/
theorem regWrite_issued (w : RegWrite) (s : State) (h : s.tx = .none) : Issued [w] s (regWrite w s) :=
  regWrites_issued [w] s h

/-- `Issued` does not look at what is before the pins. -/
theorem issued_congr {ws : List RegWrite} {s s' t t' : State} (h : Issued ws s' t) (hc : s'.cfg = s.cfg)
    (hi : s'.inputs = s.inputs) (hs : SameBus s s') (htc : t'.cfg = t.cfg) (hti : t'.inputs = t.inputs)
    (ht : SameBus t t') : Issued ws s t' := by
  obtain ⟨h1, h2, h3, h4, h5, h6, h7⟩ := h
  obtain ⟨p1, p2, p3, p4, p5⟩ := hs
  obtain ⟨q1, q2, q3, q4, q5⟩ := ht
  exact ⟨by rw [htc, h1, hc], by rw [hti, h2, hi], by rw [q2, h3], by rw [q1, h4, p1], by rw [q5, h5, p5, hc],
    by rw [q4, h6, p4], by rw [q3, h7, p3]⟩

/-- Setting `inited` and ending a command issue nothing more. -/
theorem issued_finish {ws : List RegWrite} {s t : State} (h : Issued ws s t) (b : Bool) (st : Status)
    (index keyoff : BitVec 3) : Issued ws s (finish st index keyoff { t with inited := b }) := h

/-- Setting `inited` and the sequencer after a pool reset issues nothing more. -/
theorem issued_initRun {ws : List RegWrite} {s t : State} (h : Issued ws (poolReset s) t) (b : Bool) (q : Seq) :
    Issued ws s { t with inited := b, seq := q } := h

/-- A new pool before the writes and the end of the command after them issue nothing more. -/
theorem issued_pool_finish {ws : List RegWrite} {s t : State} (pool : Pool) (h : Issued ws { s with pool := pool } t)
    (st : Status) (index keyoff : BitVec 3) : Issued ws s (finish st index keyoff t) := h

/-- Doing nothing at the pins is issuing no write. -/
theorem issued_nil {s t : State} (h : s.tx = .none) (hc : t.cfg = s.cfg) (hi : t.inputs = s.inputs)
    (hb : SameBus s t) : Issued [] s t :=
  issued_congr (regWrites_issued [] s h) rfl rfl ⟨rfl, rfl, rfl, rfl, rfl⟩ hc hi hb

/-- The frequency writes are documented (R34, R183). -/
theorem documented_freq (c : Params) (i : Fin 6) (b : Byte) :
    Documented c (freqHiWrite i b) ∧ Documented c (freqLoWrite i b) := by
  have h : 0xA4 ≤ (freqHiAddress (offsetOf (indexOf i))).toNat ∧ (freqHiAddress (offsetOf (indexOf i))).toNat ≤ 0xA6 ∧
      0xA0 ≤ (freqLoAddress (offsetOf (indexOf i))).toNat ∧ (freqLoAddress (offsetOf (indexOf i))).toNat ≤ 0xA2 := by
    revert i
    decide
  exact ⟨.inr (.inr (.inl ⟨h.1, h.2.1⟩)), .inr (.inl ⟨h.2.2.1, h.2.2.2⟩)⟩

/-- The writes of `VELOCITY` are documented (R188). -/
theorem documented_velocity (c : Params) (v : Velocity) : ∀ w ∈ velocityWrites c v, Documented c w := by
  intro w hw
  simp only [velocityWrites, List.mem_flatMap, List.mem_map] at hw
  obtain ⟨p, _, n, hn, op, _, rfl⟩ := hw
  have hn3 : ∃ m < 3, n.setWidth 8 = BitVec.ofNat 8 m := by
    simp only [List.mem_cons, List.not_mem_nil, or_false] at hn
    rcases hn with rfl | rfl | rfl
    · exact ⟨0, by decide, rfl⟩
    · exact ⟨1, by decide, rfl⟩
    · exact ⟨2, by decide, rfl⟩
  obtain ⟨m, hm, he⟩ := hn3
  exact .inr (.inr (.inr (.inl ⟨op, m, hm, by simp [tlAddress, slotAddress, he]⟩)))

/-- The writes of a `KEY_ON` are documented. -/
theorem documented_keyOn (c : Params) (i : Fin 6) (high low : Byte) (v : Velocity) :
    ∀ w ∈ keyOnWrites c i high low v, Documented c w := by
  intro w hw
  simp only [keyOnWrites, List.mem_append, List.mem_cons, List.not_mem_nil, or_false] at hw
  rcases hw with ((rfl | rfl) | hw) | rfl
  · exact (documented_freq c i high).1
  · exact (documented_freq c i low).2
  · exact documented_velocity c v w hw
  · exact .inl rfl

/-- What a host command issues, from rest: documented writes only (R172, R186, R193, R196, R200). -/
theorem exec_issued (w : CommandWord) (s t : State) (hs : s.tx = .none) (h : exec (decodeHost w) s = .next t) :
    ∃ ws, Issued ws s t ∧ ∀ w ∈ ws, Documented s.cfg w := by
  have hraise : ∀ st, Issued [] s (raise st s) := fun st => issued_nil hs rfl rfl ⟨rfl, rfl, rfl, rfl, rfl⟩
  unfold decodeHost at h
  split at h
  · refine ⟨s.cfg.voiceProgram, ?_, fun w hw => .inr (.inr (.inr (.inr hw)))⟩
    have hp : Issued s.cfg.voiceProgram (poolReset s) (playVoiceProgram (poolReset s)) :=
      regWrites_issued _ (poolReset s) hs
    rw [← Host.Outcome.next.inj h]
    exact issued_finish hp true .ok 0 0
  split at h
  · simp only [exec] at h
    rcases execKeyOn_cases (noteField w) (velField w) s with ⟨st, _, he⟩ | ⟨_, _, he⟩ | ⟨_, i, high, low, _, _, he⟩
    · rw [he] at h; rw [← Host.Outcome.next.inj h]; exact ⟨[], hraise _, by simp⟩
    · rw [he] at h; rw [← Host.Outcome.next.inj h]; exact ⟨[], hraise _, by simp⟩
    · rw [he] at h; rw [← Host.Outcome.next.inj h]
      exact ⟨_, issued_pool_finish (Pool.put s.pool i _) (regWrites_issued (keyOnWrites s.cfg i high low _) _ hs) _ _ _,
        documented_keyOn _ _ _ _ _⟩
  split at h
  · simp only [exec] at h
    rcases execKeyOff_cases (noteField w) s with ⟨_, he⟩ | ⟨_, f, _, he⟩ | ⟨_, _, he⟩ | ⟨_, k, pool, _, he⟩
    · rw [he] at h; rw [← Host.Outcome.next.inj h]; exact ⟨[], hraise _, by simp⟩
    · rw [he] at h; cases h
    · rw [he] at h; rw [← Host.Outcome.next.inj h]; exact ⟨[], hraise _, by simp⟩
    · rw [he] at h; rw [← Host.Outcome.next.inj h]
      refine ⟨_, issued_pool_finish pool (regWrite_issued (keyOffWrite s.cfg k) _ hs) _ _ _, ?_⟩
      · intro w hw
        rw [List.mem_singleton] at hw
        subst hw
        exact .inl rfl
  · rw [← Host.Outcome.next.inj h]; exact ⟨[], hraise _, by simp⟩

/-- What a sequencer row issues, from rest: documented writes only (R29). -/
theorem advance_issued (s t : State) (hs : s.tx = .none) (h : advance s = .next t) :
    ∃ ws, Issued ws s t ∧ ∀ w ∈ ws, Documented s.cfg w := by
  have hseq : ∀ (ws : List RegWrite) (u : State) (q : Seq), Issued ws s u → Issued ws s { u with seq := q } :=
    fun _ _ _ h => h
  have hnil : ∀ u : State, u.cfg = s.cfg → u.inputs = s.inputs → SameBus s u →
      ∃ ws, Issued ws s u ∧ ∀ w ∈ ws, Documented s.cfg w := fun u h1 h2 h3 => ⟨[], issued_nil hs h1 h2 h3, by simp⟩
  have hone : ∀ (w : RegWrite) (q : Seq), Documented s.cfg w →
      ∃ ws, Issued ws s { regWrite w s with seq := q } ∧ ∀ w ∈ ws, Documented s.cfg w := fun w q hd =>
    ⟨[w], hseq _ _ _ (regWrite_issued w s hs), by simpa using hd⟩
  have hsame : ∀ q : Seq, SameBus s { s with seq := q } := fun _ => ⟨rfl, rfl, rfl, rfl, rfl⟩
  unfold advance at h
  cases hq : s.seq with
  | idle => simp only [hq] at h; rw [← Host.Outcome.next.inj h]; exact hnil _ rfl rfl ⟨rfl, rfl, rfl, rfl, rfl⟩
  | decode => simp only [hq] at h; rw [← Host.Outcome.next.inj h]; exact hnil _ rfl rfl (hsame _)
  | onCheck =>
    simp only [hq] at h
    split at h <;> rw [← Host.Outcome.next.inj h] <;> exact hnil _ rfl rfl ⟨rfl, rfl, rfl, rfl, rfl⟩
  | onAlloc =>
    simp only [hq] at h
    rw [← Host.Outcome.next.inj h]
    unfold rowOnAlloc
    split <;> exact hnil _ rfl rfl ⟨rfl, rfl, rfl, rfl, rfl⟩
  | onFhi =>
    simp only [hq, rowOnFhi] at h
    split at h
    · cases h
    split at h
    · cases h
    rw [← Host.Outcome.next.inj h]
    exact hone _ _ (documented_freq _ _ _).1
  | onFlo =>
    simp only [hq, rowOnFlo] at h
    split at h
    · cases h
    split at h
    · cases h
    rw [← Host.Outcome.next.inj h]
    exact hone _ _ (documented_freq _ _ _).2
  | onVel =>
    simp only [hq] at h
    rw [← Host.Outcome.next.inj h]
    exact ⟨_, hseq _ _ _ (regWrites_issued (velocityWrites s.cfg s.cmd.vel) s hs), documented_velocity _ _⟩
  | onKey =>
    simp only [hq, rowOnKey] at h
    split at h
    · cases h
    rw [← Host.Outcome.next.inj h]
    exact hone _ _ (.inl rfl)
  | offCheck =>
    simp only [hq] at h
    split at h <;> rw [← Host.Outcome.next.inj h] <;> exact hnil _ rfl rfl ⟨rfl, rfl, rfl, rfl, rfl⟩
  | offRel =>
    simp only [hq, rowOffRel] at h
    split at h
    · cases h
    · rw [← Host.Outcome.next.inj h]; exact hnil _ rfl rfl ⟨rfl, rfl, rfl, rfl, rfl⟩
    · rw [← Host.Outcome.next.inj h]; exact hnil _ rfl rfl ⟨rfl, rfl, rfl, rfl, rfl⟩
  | offKey =>
    simp only [hq, rowOffKey] at h
    split at h
    · cases h
    rw [← Host.Outcome.next.inj h]
    exact hone _ _ (.inl rfl)
  | initRun =>
    simp only [hq] at h
    rw [← Host.Outcome.next.inj h]
    have hp : Issued s.cfg.voiceProgram (poolReset s) (playVoiceProgram (poolReset s)) :=
      regWrites_issued _ (poolReset s) hs
    exact ⟨_, issued_initRun hp _ _, fun w hw => .inr (.inr (.inr (.inr hw)))⟩
  | done st =>
    simp only [hq] at h
    rw [← Host.Outcome.next.inj h]
    unfold rowDone
    split <;> exact hnil _ rfl rfl ⟨rfl, rfl, rfl, rfl, rfl⟩

/-- One row of the refinement, when the row answers a next state. -/
theorem advanceRows_next {n : Nat} {s t : State} (h : s.seq ≠ .idle) (ha : advance s = .next t) :
    advanceRows (n + 1) s = advanceRows n t := by
  simp [advanceRows, h, ha]

/-- In `IDLE` no row is left to run. -/
theorem advanceRows_idle (n : Nat) (s : State) (h : s.seq = .idle) : advanceRows n s = .next s := by
  cases n <;> simp [advanceRows, h]

/-- Row `DONE` is the last (R29). -/
theorem advanceRows_done (n : Nat) (st : Status) (s : State) (h : s.seq = .done st) :
    advanceRows (n + 1) s = .next (rowDone st s) := by
  rw [advanceRows_next (t := rowDone st s) (by simp [h]) (by simp [advance, h]), advanceRows_idle]
  unfold rowDone
  split <;> rfl

end Sys2Proof.Machine
end

