-- ==== Sys2Proof/Tests/Slice0.lean ====
section
/-! SUPPORT. Own tests: ill-formed terms refused, words decoded, single steps against the vectors of
95_test_vectors.md, and for each statement with hypotheses a state and operands that meet them. -/

namespace Sys2Proof.Tests

open Sys2Proof Sys2Proof.Machine

/-! ### Configurations and states -/

/-- The default parameters of 95_test_vectors.md with `ALG = 0`, `T_SETTLE = 1` and the two-entry voice
program of V325. -/
def params : Params := defaultParams 0 1 [⟨0x22, 0x00, 0⟩, ⟨0xB0, 0x00, 0⟩] 1

/-- The reset state of R36 with those parameters. -/
def fresh : State := State.afterReset params .deasserted []

/-- After `INIT`: initialised, empty pool. -/
def ready : State := { fresh with inited := true }

/-- A slot that holds a note, with the bytes the default table gives it. -/
def held (i : Fin 6) (n : Note) (v : Velocity) : Slot :=
  match encodeNote params n with
  | some (high, low) => allocatedSlot i n v high low
  | none => Slot.unset

/-- The state `ready` with notes in some of its slots. -/
def withNotes (notes : List (Fin 6 × Note)) : State :=
  { ready with pool := notes.foldl (fun p x => Pool.put p x.1 (held x.1 x.2 100)) Pool.empty }

/-- V313 row 8: notes 1 to 6 in slots 0 to 5. -/
def full : State := withNotes [(0, 1), (1, 2), (2, 3), (3, 4), (4, 5), (5, 6)]

/-- R146: slots 1 and 4 hold note 60; V313 row 6 beside it: slot 0 is free. -/
def twice : State := withNotes [(1, 60), (4, 60)]

/-- A pool outside the invariant of R24: slot 0 is active and its note is `UNSET`. -/
def broken : State := { ready with pool := Pool.put Pool.empty 0 { Slot.unset with active := true } }

/-- The state an operation answers, or the state given where it answers none. -/
def after (i : Instr) (s : State) : State :=
  match exec i s with
  | .next t => t
  | .fault _ => s
  | .refused _ => s

/-- What a step's next state says, if the step answers one. -/
def stepped {α : Type} (s : State) (f : State → α) : Option α :=
  match step s with
  | .next t => some (f t)
  | .fault _ => none
  | .refused _ => none

/-- The state a step answers, or the state given where it answers none. -/
def stepState (s : State) : State :=
  match step s with
  | .next t => t
  | .fault _ => s
  | .refused _ => s

/-- The writes an operation appends to the bus log of `s`. -/
def issued (i : Instr) (s : State) : List RegWrite := (after i s).log.drop s.log.length

/-- The response latches after an operation. -/
def response (i : Instr) (s : State) : BitVec 3 × BitVec 3 × BitVec 3 :=
  let t := after i s
  (t.rspStatus, t.rspIndex, t.rspKeyoff)

/-- The notes in the pool, slot by slot. -/
def notes (s : State) : List (Option Note) := scanOrder.map fun i => (s.pool.slot i).note

/-! ### WellFormed: an ill-formed term for each check (R99, R100) -/

theorem test_wf_fnumHi_slot3 : wellFormed params (.wFnumHi 0 3 2 1) = false := by decide
theorem test_wf_fnumLo_slot3 : wellFormed params (.wFnumLo 0 3 5) = false := by decide
theorem test_wf_tl_slot3 : wellFormed params (.wTl 0 .op4 3 0) = false := by decide
theorem test_wf_fbAlg_slot3 : wellFormed params (.wFbAlg 0 3 0) = false := by decide
theorem test_wf_pan_slot3 : wellFormed params (.wPan 1 3 0) = false := by decide
theorem test_wf_keyOn_key3 : wellFormed params (.wKeyOn 3) = false ∧ wellFormed params (.wKeyOn 7) = false := by
  decide
theorem test_wf_keyOff_key7 : wellFormed params (.wKeyOff 7) = false ∧ wellFormed params (.wKeyOff 3) = false := by
  decide
theorem test_wf_opparam_slot3 : wellFormed params (.wOpparam 0 0b001100#6 3 0) = false := by decide
theorem test_wf_opparam_range : wellFormed params (.wOpparam 0 0b001011#6 0 0) = false ∧
    wellFormed params (.wOpparam 0 0b101000#6 0 0) = false := by decide
theorem test_wf_opparam_on_tl : wellFormed params (.wOpparam 0 0b010000#6 0 0) = false := by decide
theorem test_wf_opparam_edges : wellFormed params (.wOpparam 0 0b001100#6 0 0) = true ∧
    wellFormed params (.wOpparam 1 0b100111#6 2 0) = true := by decide

/-- R9: the configuration of State.reset meets (a), (b), (c), (e) and (f). -/
theorem test_params_legal : Params.atReset.Legal ∧ Params.atReset.EntriesBelowLimit ∧
    Params.atReset.TableAscending ∧ Params.atReset.TlGrouped :=
  ⟨⟨by decide, Nat.succ_pos _, by decide, by decide⟩, by decide, by decide, by decide⟩

/-! ### Decoding: words written out from R91, R96 and R99 -/

/-- Format H is `op note vel` (R91); V317. -/
theorem test_decode_host : decodeHost 0b00_00000000_0000000#17 = .init ∧
    decodeHost 0b01_00111100_1100100#17 = .keyOn 60 100 ∧ decodeHost 0b01_01000101_1000000#17 = .keyOn 69 64 ∧
    decodeHost 0b10_10000011_0000000#17 = .keyOff 131 ∧ decodeHost 0b11_00000000_0000000#17 = .reservedOp3 := by
  decide

/-- `p 101001nn 00bbbfff`, `p 101000nn ffffffff` (R99). -/
theorem test_decode_fnum : decodeBus params 0b1_10100110_00010001#17 = .ok (.wFnumHi 1 2 0b010 0b001) ∧
    decodeBus params 0b0_10100001_00000101#17 = .ok (.wFnumLo 0 1 5) := by decide

/-- `P 00101000 11110kkk` and `P 00101000 00000kkk` with `P = KEY_PORT = 0` (R99). -/
theorem test_decode_key : decodeBus params 0b0_00101000_11110101#17 = .ok (.wKeyOn 5) ∧
    decodeBus params 0b0_00101000_00000101#17 = .ok (.wKeyOff 5) := by decide

/-- `p 0100oonn aaaaaaaa` with the default `TL_ADDR`: 00 is operator 1, 01 is 3, 10 is 2, 11 is 4 (R99). -/
theorem test_decode_tl : decodeBus params 0b0_01000000_01100100#17 = .ok (.wTl 0 .op1 0 100) ∧
    decodeBus params 0b1_01000101_00000000#17 = .ok (.wTl 1 .op3 1 0) ∧
    decodeBus params 0b0_01001010_00000000#17 = .ok (.wTl 0 .op2 2 0) ∧
    decodeBus params 0b0_01001100_00000000#17 = .ok (.wTl 0 .op4 0 0) := by decide

/-- `W_LFO`, `W_MODE`, `W_DAC` (R99). -/
theorem test_decode_global : decodeBus params 0b0_00100010_00000111#17 = .ok (.wLfo 0 7) ∧
    decodeBus params 0b1_00100111_01000000#17 = .ok (.wMode 1 64) ∧
    decodeBus params 0b0_00101011_10000000#17 = .ok (.wDac 0 128) := by decide

/-- `W_OPPARAM`, `W_FB_ALG`, `W_PAN` (R99). -/
theorem test_decode_voice : decodeBus params 0b0_00110001_01110001#17 = .ok (.wOpparam 0 0b001100 1 0x71) ∧
    decodeBus params 0b1_10110010_00110010#17 = .ok (.wFbAlg 1 2 0x32) ∧
    decodeBus params 0b0_10110100_11000000#17 = .ok (.wPan 0 0 0xC0) := by decide

/-- What belongs to no class is refused by name (R100, R34). -/
theorem test_decode_refusals : decodeBus params 0b1_00101000_11110000#17 = .error .notKeyPort ∧
    decodeBus params 0b0_00101000_11110011#17 = .error .keyData ∧
    decodeBus params 0b0_00101000_10000000#17 = .error .keyData ∧
    decodeBus params 0b0_10100011_00000000#17 = .error .voiceSlot3 ∧
    decodeBus params 0b0_10100100_01000000#17 = .error .fnumHiData ∧
    decodeBus params 0b0_10101000_00000000#17 = .error .undocumented ∧
    decodeBus params 0b0_00101111_00000000#17 = .error .undocumented := by decide

/-- Bytes: too few, a bit above bit 16, and the bytes that follow a word (log 15). -/
theorem test_decode_bytes : decode [0x64, 0x9E] = .error .tooFewBytes ∧
    decode [0x64, 0x9E, 0x02] = .error .bitsAboveWord ∧
    decode [0x64, 0x9E, 0x00, 0xAB] = .ok (.keyOn 60 100, [0xAB]) := by decide

/-- The opcode table's words of the four host commands. -/
theorem test_decode_table : decodeTableWord 24 0x00000 = some .init ∧
    decodeTableWord 24 0x08000 = some (.keyOn 0 0) ∧ decodeTableWord 24 0x10000 = some (.keyOff 0) ∧
    decodeTableWord 24 0x18000 = some .reservedOp3 := by decide

/-- The word placed for the first instruction after reset is the one run: V318, rows 1, 4 and 5. -/
theorem test_fetch_from_reset : stepped (State.reset.withFetchWord 24 0x09E64) (fun t => t.rspStatus) = some 4 ∧
    stepped (State.reset.withFetchWord 24 0x18000) (fun t => t.rspStatus) = some 5 ∧
    stepped (State.reset.withFetchWord 24 0x00000) (fun t => t.inited) = some true := by decide

/-! ### ENCODE (V310, V312, R131) -/

theorem test_encode_vectors : encodeNote params 0 = some (0x10, 0x08) ∧
    encodeNote params 60 = some (0x11, 0x05) ∧ encodeNote params 95 = some (0x17, 0xB7) ∧
    encodeNote params 96 = some (0x1C, 0x16) ∧ encodeNote params 131 = some (0x2F, 0xB7) ∧
    encodeNote params 132 = none := by decide

/-- V312: a table whose every entry is the fraction `num / den`. -/
def flat (num den : Nat) : Params := { params with baseNum := Vector.replicate 12 num, baseDen := den }

theorem test_encode_corners : encodeNote (flat 256 1) 96 = some (0x1C, 0x00) ∧
    encodeNote (flat 25599 100) 96 = some (0x17, 0xFF) ∧ encodeNote (flat 0 1) 50 = some (0x10, 0x00) ∧
    encodeNote (flat 32 1) 0 = some (0x10, 0x01) ∧ encodeNote (flat 3199 100) 0 = some (0x10, 0x00) ∧
    encodeNote (flat 204799 100) 120 = some (0x3F, 0xFF) ∧ encodeNote (flat 2048 1) 120 = some (0x04, 0x00) := by
  decide

/-! ### ALLOCATE, RELEASE, POOL_RESET (V313) -/

theorem test_allocate_fresh : (after (.allocate 60 100) fresh).result = .handle 0 ∧
    (after (.allocate 60 100) fresh).pool.slot 0 = ⟨true, some 0, some 60, some 0x11, some 0x05, some 100⟩ := by
  decide
theorem test_allocate_full : (after (.allocate 7 1) full).result = .noFreeChannel ∧
    notes (after (.allocate 7 1) full) = [some 1, some 2, some 3, some 4, some 5, some 6] := by decide
theorem test_release_index3 : (after (.release 4) full).result = .keyOffset 4 ∧
    notes (after (.release 4) full) = [some 1, some 2, some 3, none, some 5, some 6] := by decide
/-- R146, and V313 row 13: cleared storage does not match note 0. -/
theorem test_release_first_match : (after (.release 60) twice).result = .keyOffset 1 ∧
    notes (after (.release 60) twice) = [none, none, none, none, some 60, none] ∧
    (after (.release 0) fresh).result = .notFound := by decide
theorem test_poolReset : notes (after .poolReset full) = [none, none, none, none, none, none] ∧
    (after .poolReset full).log = full.log := by decide

/-! ### REGWRITE (R170, V314) -/

theorem test_regwrite_trace : (after (.regwrite 0x28 0xF0 0) fresh).trace =
    [.psel 0, .dsel .deasserted, .dbus 0x28, .strobe .asserted, .settle 1, .strobe .deasserted,
      .dsel .asserted, .dbus 0xF0, .strobe .asserted, .settle 1, .strobe .deasserted,
      .dsel .deasserted, .settle 1] := by decide
theorem test_regwrite_pins : (after (.regwrite 0xA4 0x11 1) fresh).pins =
      ⟨.deasserted, .deasserted, .deasserted, .deasserted, .deasserted, 1, 0x11, true⟩ ∧
    (after (.regwrite 0xA4 0x11 1) fresh).chipAt 1 0xA4 = some 0x11 ∧
    (after (.regwrite 0xA4 0x11 1) fresh).chipAt 0 0xA4 = none := by decide

/-! ### The bus-write classes (V311, V316) -/

theorem test_bus_note : issued (.wFnumHi 1 2 2 1) fresh = [⟨0xA6, 0x11, 1⟩] ∧
    issued (.wFnumLo 1 2 0xB8) fresh = [⟨0xA2, 0xB8, 1⟩] ∧ issued (.wKeyOn 6) fresh = [⟨0x28, 0xF6, 0⟩] ∧
    issued (.wKeyOff 6) fresh = [⟨0x28, 0x06, 0⟩] ∧ issued (.wTl 0 .op2 1 0x0A) fresh = [⟨0x49, 0x0A, 0⟩] := by
  decide
theorem test_bus_voice : issued (.wLfo 0 8) fresh = [⟨0x22, 8, 0⟩] ∧ issued (.wMode 0 1) fresh = [⟨0x27, 1, 0⟩] ∧
    issued (.wDac 1 2) fresh = [⟨0x2B, 2, 1⟩] ∧ issued (.wOpparam 0 0b001100 1 3) fresh = [⟨0x31, 3, 0⟩] ∧
    issued (.wFbAlg 1 2 4) fresh = [⟨0xB2, 4, 1⟩] ∧ issued (.wPan 0 1 5) fresh = [⟨0xB5, 5, 0⟩] := by decide

/-! ### VELOCITY, VOICE_PROGRAM (V315, V316, R188, V325) -/

theorem test_attenuation : [0, 1, 50, 64, 90, 99, 100, 101, 102, 127].map attenuation =
    [0x64, 0x63, 0x32, 0x24, 0x0A, 0x01, 0x00, 0xFF, 0xFE, 0xE5] := by decide
theorem test_velocity_alg4 : issued (.velocity 90) { fresh with cfg := { params with alg := 4 } } =
    [⟨0x48, 0x0A, 0⟩, ⟨0x4C, 0x0A, 0⟩, ⟨0x49, 0x0A, 0⟩, ⟨0x4D, 0x0A, 0⟩, ⟨0x4A, 0x0A, 0⟩, ⟨0x4E, 0x0A, 0⟩,
      ⟨0x48, 0x0A, 1⟩, ⟨0x4C, 0x0A, 1⟩, ⟨0x49, 0x0A, 1⟩, ⟨0x4D, 0x0A, 1⟩, ⟨0x4A, 0x0A, 1⟩, ⟨0x4E, 0x0A, 1⟩] := by
  decide
theorem test_voiceProgram : issued .voiceProgram fresh = [⟨0x22, 0x00, 0⟩, ⟨0xB0, 0x00, 0⟩] := by decide

/-! ### The commands (R186, R193, V318 to V326) -/

theorem test_keyOn_example : issued (.keyOn 60 100) ready =
      [⟨0xA4, 0x11, 0⟩, ⟨0xA0, 0x05, 0⟩, ⟨0x4C, 0x00, 0⟩, ⟨0x4D, 0x00, 0⟩, ⟨0x4E, 0x00, 0⟩, ⟨0x4C, 0x00, 1⟩,
        ⟨0x4D, 0x00, 1⟩, ⟨0x4E, 0x00, 1⟩, ⟨0x28, 0xF0, 0⟩] ∧
    response (.keyOn 60 100) ready = (0, 0, 0) := by decide
theorem test_keyOn_refusals : response (.keyOn 200 100) fresh = (4, 0, 0) ∧
    response (.keyOn 132 100) full = (3, 0, 0) ∧ response (.keyOn 60 100) full = (1, 0, 0) := by decide
/-- V322 step 6 (index 2) and R146. -/
theorem test_keyOff : issued (.keyOff 3) full = [⟨0x28, 0x02, 0⟩] ∧ response (.keyOff 3) full = (0, 0, 2) ∧
    response (.keyOff 60) twice = (0, 0, 1) := by decide
theorem test_keyOff_refusals : response (.keyOff 60) fresh = (4, 0, 0) ∧ response (.keyOff 200) ready = (2, 0, 0) ∧
    issued (.keyOff 60) full = [] := by decide
/-- V325 step 3: a repeated `INIT` empties the pool and issues no key-off. -/
theorem test_init : response .init full = (0, 0, 0) ∧ issued .init full = [⟨0x22, 0x00, 0⟩, ⟨0xB0, 0x00, 0⟩] ∧
    notes (after .init full) = [none, none, none, none, none, none] ∧ (after .init fresh).inited = true := by decide
theorem test_reserved : response .reservedOp3 fresh = (5, 0, 0) ∧ issued .reservedOp3 full = [] := by decide

/-! ### Witnesses: for each statement with hypotheses, a state and operands that meet them -/

/-- The pool of `twice` meets the invariant. -/
theorem twice_poolInv : twice.PoolInv := by
  refine ⟨by decide, by decide, fun i hi => ?_⟩
  have h : i = 1 ∨ i = 4 := by
    revert i
    decide
  rcases h with rfl | rfl
  · exact ⟨60, 0x11, 0x05, by decide, by decide, by decide, by decide, by decide⟩
  · exact ⟨60, 0x11, 0x05, by decide, by decide, by decide, by decide, by decide⟩

/-- The pool right after `INIT` meets the invariant. -/
theorem ready_poolInv : ready.PoolInv := by
  refine ⟨by decide, by decide, fun i hi => ?_⟩
  have h : ∀ i : Fin 6, (ready.pool.slot i).active = false := by decide
  rw [h i] at hi
  cases hi

/-- A host that presents one command word to `twice`. -/
def presented (w : CommandWord) : State := { twice with inputs := [.command w] }

/-- `KEY_OFF 60` in the middle of its run, another word on the port. -/
def running : State := { twice with busy := true, seq := .offRel, cmd := ⟨2, 60, 0⟩, inputs := [.command 0x09E64] }

/-- A write in flight. -/
def inFlight (tx : Tx) : State := { fresh with tx := tx, inputs := [.command 0x00000] }

theorem witness_hostCommandSelectedByOp : 0x07FFF#17 &&& 0x18000#17 = 0x00000#17 ∧
    0x08000#17 &&& 0x18000#17 = 0x08000#17 ∧ 0x17FFF#17 &&& 0x18000#17 = 0x10000#17 ∧
    0x18000#17 &&& 0x18000#17 = 0x18000#17 := by decide
theorem witness_decodeInvertsEncode : params.TlGrouped ∧
    wellFormed params (.keyOn 131 127) = true ∧ encode params (.keyOn 131 127) = some 0x0C1FF ∧
    hostWord (.keyOn 131 127) = some 0x0C1FF ∧
    wellFormed params (.wTl 1 .op4 2 255) = true ∧ encode params (.wTl 1 .op4 2 255) = some 0x14EFF ∧
    busWrite params (.wTl 1 .op4 2 255) = some ⟨0x4E, 255, 1⟩ := by decide
theorem witness_encodeInvertsBusDecode : decodeBus params 0x028F6 = .ok (.wKeyOn 6) ∧ params.TlGrouped ∧
    wellFormed params (.wTl 1 .op4 2 255) = true ∧ busWrite params (.wTl 1 .op4 2 255) = some ⟨0x4E, 255, 1⟩ := by
  decide
theorem witness_bytesDecodeAsTheirWord : 131071 < 2 ^ 17 ∧ 2 ^ 17 ≤ 131072 ∧ 131072 < 2 ^ 24 ∧
    2 ^ 17 ≤ 16777215 ∧ 16777215 < 2 ^ 24 := by decide
theorem witness_stepRunsThePresentedCommand : (presented 0x09E64).tx = .none ∧ (presented 0x09E64).busy = false ∧
    (presented 0x09E64).pins.reset = .deasserted ∧ (presented 0x09E64).inputs = [.command 0x09E64] ∧
    0x1FFFF < 2 ^ 24 ∧ 0x1FFFF < 2 ^ 17 := by decide
theorem witness_idleBlockWaits : twice.tx = .none ∧ twice.busy = false ∧ twice.inputs = [] := by decide
theorem witness_busyBlockIgnoresThePort : running.busy = true ∧ running.inputs = [.command 0x09E64] ∧
    step running = .next (stepState running) ∧ (∀ l later, ([] : List HostEvent) ≠ .resetInput l :: later) ∧
    ∀ l later, [HostEvent.command 0x00000] ≠ .resetInput l :: later :=
  ⟨rfl, rfl, rfl, by simp, by simp⟩
theorem witness_writeInFlightRunsOn :
    (∀ tx l rest, (inFlight tx).inputs ≠ .resetInput l :: rest) ∧ (inFlight (.addr ⟨0x28, 0, 0⟩)).tx = .addr ⟨0x28, 0, 0⟩ ∧
      (inFlight (.data ⟨0x28, 0, 0⟩)).tx = .data ⟨0x28, 0, 0⟩ ∧
      (inFlight (.recover ⟨0x28, 0, 0⟩)).tx = .recover ⟨0x28, 0, 0⟩ := by
  refine ⟨fun tx l rest h => ?_, rfl, rfl, rfl⟩
  cases h
theorem witness_resetInputActsAtOnce :
    ({ running with inputs := [.resetInput .asserted, .command 0x00000] } : State).inputs =
      .resetInput .asserted :: [.command 0x00000] ∧
    ({ running with inputs := [.resetInput .deasserted] } : State).inputs = .resetInput .deasserted :: [] := ⟨rfl, rfl⟩
theorem witness_noCommandInReset :
    let s : State := { fresh with pins := Pins.idle .asserted, inputs := [.command 0x00000] }
    s.tx = .none ∧ s.busy = false ∧ s.pins.reset = .asserted ∧ s.inputs = .command 0x00000 :: [] := by decide
theorem witness_encodeFollowsTheRationalAlgorithm : (131#8).toNat ≤ 131 ∧ 0 < fresh.cfg.baseDen := by decide
theorem witness_encodeRejectsNotesAbove131 : 131 < (132#8).toNat := by decide
/-- Notes 95 and 96: no halving and the first one (R131). -/
theorem witness_integerFormOfTheEncoder : 0 < params.baseDen ∧
    params.base 11 * 2 ^ 7 < 2048 * 3200 * 2 ^ 0 ∧
    params.base 0 * 2 ^ 8 < 2048 * 3200 * 2 ^ 1 ∧ ∀ j < 1, 2048 * 3200 * 2 ^ j ≤ params.base 0 * 2 ^ 8 := by decide
theorem witness_bytesPackBlockAndFnum : 0 < params.baseDen ∧ encodeNote params 131 = some (0x2F, 0xB7) := by decide
theorem witness_blockFitsThreeBits : 0 < params.baseDen ∧ params.EntriesBelowLimit ∧ (131#8).toNat ≤ 131 := by decide
theorem witness_blockNeverFalls : 0 < params.baseDen ∧ params.TableAscending ∧ (95#8).toNat ≤ (96#8).toNat ∧
    (96#8).toNat ≤ 131 := by decide
theorem witness_allocateTakesTheLowestFreeSlot : (131#8).toNat ≤ 131 ∧ twice.pool.LowestFree 0 ∧
    (withNotes [(0, 1), (1, 2), (2, 3), (3, 4), (4, 5)]).pool.LowestFree 5 ∧ full.pool.Full := by decide
theorem witness_allocateOnAFullPool : full.pool.Full := by decide
theorem witness_allocateOfANoteAbove131 : 131 < (132#8).toNat ∧ ¬ twice.pool.Full := by decide
theorem witness_releaseFreesTheFirstMatch : twice.pool.Consistent ∧ twice.pool.Indexed ∧
    twice.pool.FirstHolds 1 60 ∧ ∀ i : Fin 6, ¬ twice.pool.Holds i 61 := by decide
theorem witness_releaseOfAnUnheldNote : twice.pool.Consistent ∧ ∀ i : Fin 6, ¬ twice.pool.Holds i 61 := by decide
theorem witness_releaseStopsOnAnUnsetNote : (broken.pool.slot 0).active = true ∧ (broken.pool.slot 0).note = none ∧
    ∀ j : Fin 6, j < 0 → (broken.pool.slot j).active = false := by decide
theorem witness_activeSlotsAreCounted : (exec (.allocate 7 1) full = .next (after (.allocate 7 1) full) ∧
      (after (.allocate 7 1) full).pool = full.pool ∧ (7#8).toNat ≤ 131) ∧
    exec (.release 60) twice = .next (after (.release 60) twice) ∧ exec .poolReset twice = .next (poolReset twice) :=
  ⟨⟨rfl, by decide, by decide⟩, rfl, rfl⟩
theorem witness_regwriteFollowsTheProtocol : twice.tx = .none := rfl
theorem witness_noteBusClassesWrite : twice.tx = .none := rfl
theorem witness_voiceBusClassesWrite : twice.tx = .none := rfl
theorem witness_attenuationWrapsAbove100 : (100#7).toNat ≤ 100 ∧ 100 < (101#7).toNat := by decide
theorem witness_velocityWritesEveryVoice : twice.tx = .none := rfl
theorem witness_voiceProgramPlaysTheList : twice.tx = .none := rfl
theorem witness_initResetsPoolAndPlaysVoices : twice.tx = .none := rfl
theorem witness_keyOnSoundsTheLowestFreeVoice : fresh.inited = false ∧ full.inited = true ∧ 131 < (132#8).toNat ∧
    (131#8).toNat ≤ 131 ∧ full.pool.Full ∧ twice.tx = .none ∧ twice.inited = true ∧ twice.pool.LowestFree 0 := by
  decide
theorem witness_keyOffSilencesTheFirstMatch : fresh.inited = false ∧ twice.tx = .none ∧ twice.inited = true ∧
    twice.pool.Consistent ∧ twice.pool.Indexed ∧ twice.pool.FirstHolds 1 60 ∧
    ∀ i : Fin 6, ¬ twice.pool.Holds i 132 := by decide
/-- The rows of V318: each clause has a state and a note, at 131 and 132. -/
theorem witness_outcomePriority : fresh.inited = false ∧ full.inited = true ∧ 131 < (132#8).toNat ∧
    (131#8).toNat ≤ 131 ∧ full.pool.Full ∧ ¬ twice.pool.Full ∧ twice.inited = true ∧ twice.pool.Consistent ∧
    (∀ i : Fin 6, ¬ twice.pool.Holds i 132) ∧ ∃ i : Fin 6, twice.pool.Holds i 60 := by decide
theorem witness_failedCommandHasNoEffect : hostWord (.keyOn 132 100) = some 0x0C264 ∧
    exec (.keyOn 132 100) full = .next (after (.keyOn 132 100) full) ∧ (after (.keyOn 132 100) full).rspStatus ≠ 0 :=
  ⟨by decide, rfl, by decide⟩
theorem witness_keyOffAbove131IsNotFound : twice.inited = true ∧ twice.PoolInv ∧ 131 < (132#8).toNat :=
  ⟨rfl, twice_poolInv, by decide⟩
theorem witness_everyOperationIsTotal : twice.pool.Consistent ∧
    exec (.release 60) broken = .fault (.unsetField 0 .note) := ⟨by decide, rfl⟩
/-- The state after a step is given by its own name, the step of `KEY_OFF 60` on `twice`. -/
theorem witness_poolInvariantKept : (presented 0x11E00).PoolInv ∧
    step (presented 0x11E00) = .next (after (.keyOff 60) (accept 2 60 0 [] (presented 0x11E00))) :=
  ⟨twice_poolInv, rfl⟩
theorem witness_imageFollowsLogKept : (presented 0x11E00).ImageFollowsLog ∧ Memory.wf (presented 0x11E00).chip = true ∧
    step (presented 0x11E00) = .next (after (.keyOff 60) (accept 2 60 0 [] (presented 0x11E00))) := ⟨rfl, rfl, rfl⟩
theorem witness_traceFollowsLogKept : (inFlight (.addr ⟨0x28, 0, 0⟩)).TraceFollowsLog ∧
    step (inFlight (.addr ⟨0x28, 0, 0⟩)) = .next (busAdvance (inFlight (.addr ⟨0x28, 0, 0⟩))) := ⟨rfl, rfl⟩
theorem witness_pinsStayQuiet : (inFlight (.addr ⟨0x28, 0, 0⟩)).PinsQuiet ∧
    step (inFlight (.addr ⟨0x28, 0, 0⟩)) = .next (busAdvance (inFlight (.addr ⟨0x28, 0, 0⟩))) := ⟨by decide, rfl⟩
theorem witness_commandsAreIndivisible : (presented 0x11E00).AtRest ∧
    step (presented 0x11E00) = .next (after (.keyOff 60) (accept 2 60 0 [] (presented 0x11E00))) := ⟨by decide, rfl⟩
theorem witness_stepsOnlyAppendDocumentedWrites : (∀ rest, (presented 0x11E00).inputs ≠ .resetInput .asserted :: rest) ∧
    step (presented 0x11E00) = .next (after (.keyOff 60) (accept 2 60 0 [] (presented 0x11E00))) := by
  refine ⟨fun rest h => ?_, rfl⟩
  cases h
theorem witness_parametersNeverChange : exec .init full = .next (after .init full) ∧
    step (presented 0x11E00) = .next (after (.keyOff 60) (accept 2 60 0 [] (presented 0x11E00))) := ⟨rfl, rfl⟩
theorem witness_onlyInitSetsInited : exec .init fresh = .next (after .init fresh) ∧
    (let s : State := { ready with inputs := [.resetInput .asserted] }
    step s = .next (State.afterReset params .asserted []) ∧ s.inited = true ∧
      (State.afterReset params .asserted []).inited = false) := ⟨rfl, rfl, rfl, rfl⟩
theorem witness_poolAndBusHaveTheirOwners : exec (.release 60) twice = .next (after (.release 60) twice) ∧
    (after (.release 60) twice).pool ≠ twice.pool := ⟨rfl, by decide⟩
theorem witness_outcomeCodesStayInRange : exec (.keyOn 60 100) full = .next (after (.keyOn 60 100) full) ∧
    hostWord (.keyOn 60 100) = some 0x09E64 ∧ exec (.velocity 90) full = .next (after (.velocity 90) full) ∧
    hostWord (.velocity 90) = none ∧ (presented 0x11E00).rspStatus.toNat ≤ 5 ∧
    step (presented 0x11E00) = .next (after (.keyOff 60) (accept 2 60 0 [] (presented 0x11E00))) :=
  ⟨rfl, by decide, rfl, by decide, by decide, rfl⟩
theorem witness_frequencyWritesPrecedeKeyOn : twice.tx = .none ∧ exec (.keyOff 60) twice = .next (after (.keyOff 60) twice) ∧
    exec (.keyOn 60 100) twice = .next (after (.keyOn 60 100) twice) := ⟨rfl, rfl, rfl⟩
theorem witness_keyOffUndoesKeyOn : twice.AtRest ∧ twice.PoolInv ∧ twice.inited = true ∧ (131#8).toNat ≤ 131 ∧
    ¬ twice.pool.Full ∧ ∀ i : Fin 6, ¬ twice.pool.Holds i 131 :=
  ⟨by decide, twice_poolInv, rfl, by decide, by decide, by decide⟩

end Sys2Proof.Tests
end

section
/-! The statements of 00_scope.md: the bound on `block` (R9 (b)) and the indivisible command (R12). -/

namespace Sys2Proof.Machine

/-! ### The bound on `block` -/

/-- No more halvings are done than are enough (R125). -/
theorem LeastHalvings.le {num den k j : Nat} (h : LeastHalvings num den k) (hj : num < fnumLimit * (den * 2 ^ j)) :
    k ≤ j :=
  not_lt.1 fun hjk => not_lt.2 (h.2 j hjk) hj

/-- A legal note is in one of the octaves 0 to 10 (R121, R123). -/
theorem octaveIndex_le_ten {n : Note} (h : n.toNat ≤ 131) : octaveIndex n ≤ 10 :=
  Nat.div_le_div_right (c := semitones) h

/-- A base frequency below 2048 Hz, scaled by at most `2^5`, comes below 2048 again in five halvings (R124). -/
theorem scaledFrequency_lt_of_entriesBelowLimit {c : Params} {n : Note} (hc : c.EntriesBelowLimit)
    (hn : n.toNat ≤ 131) : (scaledFrequency c n).1 < fnumLimit * ((scaledFrequency c n).2 * 2 ^ 5) :=
  calc c.base (semitone n) * 2 ^ octaveIndex n
    _ ≤ c.base (semitone n) * 2 ^ 10 :=
      Nat.mul_le_mul_left _ (Nat.pow_le_pow_right (by decide) (octaveIndex_le_ten hn))
    _ < fnumLimit * c.baseDen * 2 ^ 10 := Nat.mul_lt_mul_of_pos_right (hc _) (by decide)
    _ = fnumLimit * (c.baseDen * 2 ^ octaveBias * 2 ^ 5) := by rw [octaveBias]; ring

/-- Settles O17: five halvings are enough, and `block` starts at 2. -/
theorem blockFitsThreeBits : Obligations.BlockFitsThreeBits := by
  intro c n hden hc hn
  obtain ⟨k, hk, hcode⟩ := frequencyCode_spec c n hden
  have hk5 : k ≤ 5 := hk.le (scaledFrequency_lt_of_entriesBelowLimit hc hn)
  rw [hcode]
  exact Nat.add_le_add_left hk5 blockInit

/-! ### Commands are indivisible -/

/-- A command word stands for one of the four host commands (R94). -/
theorem decodeHost_cases (w : CommandWord) :
    decodeHost w = .init ∨ (∃ note vel, decodeHost w = .keyOn note vel) ∨ (∃ note, decodeHost w = .keyOff note) ∨
      decodeHost w = .reservedOp3 := by
  unfold decodeHost
  split
  · exact .inl rfl
  split
  · exact .inr (.inl ⟨_, _, rfl⟩)
  split
  · exact .inr (.inr (.inl ⟨_, rfl⟩))
  · exact .inr (.inr (.inr rfl))

/-- Whichever way `KEY_ON` goes, what it answers is the end of the command (R186, R214). -/
theorem execKeyOn_finishes {n : Note} {v : Velocity} {s t : State} (h : execKeyOn n v s = .next t) :
    ∃ st index keyoff u, t = finish st index keyoff u := by
  rcases execKeyOn_cases n v s with ⟨st, _, he⟩ | ⟨_, _, he⟩ | ⟨_, i, high, low, _, _, he⟩
  · exact ⟨st, 0, 0, s, Host.Outcome.next.inj (h.symm.trans he)⟩
  · exact ⟨_, 0, 0, s, Host.Outcome.next.inj (h.symm.trans he)⟩
  · exact ⟨_, _, _, _, Host.Outcome.next.inj (h.symm.trans he)⟩

/-- Whichever way `KEY_OFF` goes, what it answers is the end of the command (R193, R214). -/
theorem execKeyOff_finishes {n : Note} {s t : State} (h : execKeyOff n s = .next t) :
    ∃ st index keyoff u, t = finish st index keyoff u := by
  rcases execKeyOff_cases n s with ⟨_, he⟩ | ⟨_, f, _, he⟩ | ⟨_, _, he⟩ | ⟨_, k, pool, _, he⟩
  · exact ⟨_, 0, 0, s, Host.Outcome.next.inj (h.symm.trans he)⟩
  · cases h.symm.trans he
  · exact ⟨_, 0, 0, s, Host.Outcome.next.inj (h.symm.trans he)⟩
  · exact ⟨_, _, _, _, Host.Outcome.next.inj (h.symm.trans he)⟩

/-- A host command that answers a next state has run to its end there (R12, R28). -/
theorem exec_decodeHost_finishes {w : CommandWord} {s t : State} (h : exec (decodeHost w) s = .next t) :
    ∃ st index keyoff u, t = finish st index keyoff u := by
  rcases decodeHost_cases w with hw | ⟨note, vel, hw⟩ | ⟨note, hw⟩ | hw <;> rw [hw] at h
  · exact ⟨_, _, _, _, (Host.Outcome.next.inj h).symm⟩
  · exact execKeyOn_finishes h
  · exact execKeyOff_finishes h
  · exact ⟨_, 0, 0, s, (Host.Outcome.next.inj h).symm⟩

/-- A host command started with no write in flight ends at rest (R12, R29, R169). -/
theorem exec_decodeHost_atRest {w : CommandWord} {s t : State} (hs : s.tx = .none)
    (h : exec (decodeHost w) s = .next t) : t.AtRest := by
  obtain ⟨ws, ⟨_, _, htx, _⟩, _⟩ := exec_issued w s t hs h
  obtain ⟨st, index, keyoff, u, rfl⟩ := exec_decodeHost_finishes h
  exact ⟨htx, finish_busy st index keyoff u, finish_seq st index keyoff u, finish_result st index keyoff u⟩

/-- The reset input, at either level, leaves a block at rest at rest (R240, R241). -/
theorem hardwareReset_atRest (l : Line) (rest : List HostEvent) {s : State} (h : s.AtRest) :
    (hardwareReset l rest s).AtRest := by
  cases l with
  | asserted => exact ⟨rfl, rfl, rfl, rfl⟩
  | deasserted => exact h

/-- Settles O50: at rest neither a bus phase nor a sequencer row can run, and a command ends at rest. -/
theorem commandsAreIndivisible : Obligations.CommandsAreIndivisible := by
  intro s t hrest h
  have ⟨htx, hbusy, _, _⟩ := hrest
  rcases step_cases h with ⟨l, rest, _, rfl⟩ | ⟨hne, _⟩ | ⟨_, hb, _⟩ | ⟨_, _, _, w, rest, _, rfl⟩ |
    ⟨_, _, _, w, rest, _, hexec⟩ | ⟨_, _, _, rfl⟩
  · exact hardwareReset_atRest l rest hrest
  · exact absurd htx hne
  · exact absurd (hbusy.symm.trans hb) (by decide)
  · exact hrest
  · exact exec_decodeHost_atRest (by rw [accept_tx, htx]) hexec
  · exact hrest

end Sys2Proof.Machine
end

section
/-! The statements of 10_state.md: what an operation or a step may do to the pool, the parameters and `inited`
(R20 to R28), the observer state (R33), the rows of the sequencer (R29) and the pins of a write (R30, R31). -/

namespace Sys2Proof.Machine

/-! ### The invariant of the pool, slot by slot -/

/-- What R24, R26 and R149 items 1, 2 and 5 ask of the slot at position `i`. -/
def SlotInv (c : Params) (i : Fin 6) (sl : Slot) : Prop :=
  ((sl.active = true ↔ sl.AllSet) ∧ (sl.active = false ↔ sl.AllUnset)) ∧
    (sl.index = none ∨ sl.index = some (BitVec.ofNat 3 i.val)) ∧
    (sl.active = true →
      ∃ n high low, sl.note = some n ∧ n.toNat ≤ 131 ∧ encodeNote c n = some (high, low) ∧
        sl.frequencyHigh = some high ∧ sl.frequencyLow = some low)

/-- The pool's invariant is one of each slot by itself: R149 relates no two slots. -/
theorem poolInv_iff_slotInv (s : State) : s.PoolInv ↔ ∀ i, SlotInv s.cfg i (s.pool.slot i) := by
  simp only [State.PoolInv, Pool.Consistent, Pool.Indexed, Pool.Encoded, SlotInv, forall_and]

/-- The sentinel meets R24, whatever its position. -/
theorem slotInv_unset (c : Params) (i : Fin 6) : SlotInv c i Slot.unset := by
  simp [SlotInv, Slot.unset, Slot.AllSet, Slot.AllUnset]

/-- `ENCODE` gives bytes only for a legal note (R121). -/
theorem toNat_le_of_encodeNote {c : Params} {n : Note} {b : Byte × Byte} (h : encodeNote c n = some b) :
    n.toNat ≤ 131 := by
  by_contra hn
  have hnone : encodeNote c n = none := (encodeNote_eq_none c n).2 (decide_eq_true (not_le.1 hn))
  cases h.symm.trans hnone

/-- What `ALLOCATE` writes meets R24, R26 and R149 item 5 (R141). -/
theorem slotInv_allocatedSlot {c : Params} {n : Note} {high low : Byte} (h : encodeNote c n = some (high, low))
    (i : Fin 6) (v : Velocity) : SlotInv c i (allocatedSlot i n v high low) := by
  simpa [SlotInv, Slot.AllSet, allocatedSlot, indexOf, h] using toNat_le_of_encodeNote h

/-! ### What may happen to the pool -/

/-- All that may happen to the slot at position `i` (R25, R141, R144, R147). -/
inductive SlotMove (c : Params) (i : Fin 6) (old : Slot) : Slot → Prop
  | kept : SlotMove c i old old
  | cleared : SlotMove c i old Slot.unset
  | taken (n : Note) (v : Velocity) (high low : Byte) (he : encodeNote c n = some (high, low)) :
      SlotMove c i old (allocatedSlot i n v high low)

/-- No move breaks a slot. -/
theorem SlotMove.slotInv {c : Params} {i : Fin 6} {old new : Slot} (hm : SlotMove c i old new)
    (h : SlotInv c i old) : SlotInv c i new := by
  cases hm with
  | kept => exact h
  | cleared => exact slotInv_unset c i
  | taken n v high low he => exact slotInv_allocatedSlot he i v

/-- Each slot of the pool is kept, cleared or taken. -/
def PoolMove (c : Params) (old new : Pool) : Prop := ∀ i, SlotMove c i (old.slot i) (new.slot i)

theorem poolMove_refl (c : Params) (pool : Pool) : PoolMove c pool pool := fun _ => .kept

theorem poolMove_empty (c : Params) (pool : Pool) : PoolMove c pool Pool.empty := fun i => by
  rw [pool_empty_get]
  exact .cleared

/-- Writing one slot moves the pool, if it moves that slot. -/
theorem poolMove_put {c : Params} {pool : Pool} {i : Fin 6} {sl : Slot} (h : SlotMove c i (pool.slot i) sl) :
    PoolMove c pool (Pool.put pool i sl) := fun j => by
  rw [pool_put_get]
  split
  · next hij => exact hij ▸ h
  · exact .kept

/-! ### What an operation answers -/

/-- The register writes of an operation that does nothing else: a bus-write class of R99, `REGWRITE`, `VELOCITY`
or `VOICE_PROGRAM`. -/
def plainWrites (c : Params) : Instr → Option (List RegWrite)
  | .regwrite a d p => some [⟨a, d, p⟩]
  | .velocity v => some (velocityWrites c v)
  | .voiceProgram => some c.voiceProgram
  | i => (busWrite c i).map fun w => [w]

/-- The rows of format B and the three internal bus operations are their writes (R99, R160, R188, R195). -/
theorem exec_of_plainWrites {i : Instr} {s : State} {ws : List RegWrite} (h : plainWrites s.cfg i = some ws) :
    exec i s = .next (regWrites ws s) := by
  cases i <;> cases h <;> rfl

/-- All that an operation that ends with a next state can answer, row by row of the opcode table. -/
inductive Answers (s : State) : Instr → State → Prop
  | init : Answers s .init (finish .ok 0 0 { playVoiceProgram (poolReset s) with inited := true })
  | keyOnRefused (n : Note) (v : Velocity) (st : Status) : Answers s (.keyOn n v) (raise st s)
  | keyOn (n : Note) (v : Velocity) (j : Fin 6) (high low : Byte) (he : encodeNote s.cfg n = some (high, low)) :
      Answers s (.keyOn n v) (finish .ok (indexOf j) (keyOffsetOf (indexOf j))
        (regWrites (keyOnWrites s.cfg j high low v)
          { s with pool := Pool.put s.pool j (allocatedSlot j n v high low) }))
  | keyOffRefused (n : Note) (st : Status) : Answers s (.keyOff n) (raise st s)
  | keyOff (n : Note) (j : Fin 6) (k : BitVec 3) :
      Answers s (.keyOff n)
        (finish .ok 0 k (regWrite (keyOffWrite s.cfg k) { s with pool := Pool.put s.pool j Slot.unset }))
  | reservedOp3 : Answers s .reservedOp3 (raise .illegalCommand s)
  | writes (i : Instr) (ws : List RegWrite) (hw : plainWrites s.cfg i = some ws) : Answers s i (regWrites ws s)
  | encode (n : Note) (r : OpResult) : Answers s (.encode n) { s with result := r }
  | allocateRefused (n : Note) (v : Velocity) (r : OpResult) : Answers s (.allocate n v) { s with result := r }
  | allocate (n : Note) (v : Velocity) (j : Fin 6) (high low : Byte) (he : encodeNote s.cfg n = some (high, low)) :
      Answers s (.allocate n v)
        { s with pool := Pool.put s.pool j (allocatedSlot j n v high low), result := .handle j }
  | releaseNotFound (n : Note) : Answers s (.release n) { s with result := .notFound }
  | release (n : Note) (j : Fin 6) (k : BitVec 3) :
      Answers s (.release n) { s with pool := Pool.put s.pool j Slot.unset, result := .keyOffset k }
  | poolReset : Answers s .poolReset (poolReset s)

theorem execKeyOn_answers {n : Note} {v : Velocity} {s t : State} (h : execKeyOn n v s = .next t) :
    Answers s (.keyOn n v) t := by
  rcases execKeyOn_cases n v s with ⟨st, _, he⟩ | ⟨_, _, he⟩ | ⟨_, j, high, low, _, henc, he⟩ <;>
    cases h.symm.trans he
  · exact .keyOnRefused n v st
  · exact .keyOnRefused n v _
  · exact .keyOn n v j high low henc

theorem execKeyOff_answers {n : Note} {s t : State} (h : execKeyOff n s = .next t) : Answers s (.keyOff n) t := by
  rcases execKeyOff_cases n s with ⟨_, he⟩ | ⟨_, f, _, he⟩ | ⟨_, _, he⟩ | ⟨_, k, pool, hr, he⟩ <;>
    cases h.symm.trans he
  · exact .keyOffRefused n _
  · exact .keyOffRefused n _
  · obtain ⟨j, _, _, _, _, rfl⟩ := release_keyOffset n s.pool pool k hr
    exact .keyOff n j k

theorem execEncode_answers {n : Note} {s t : State} (h : execEncode n s = .next t) : Answers s (.encode n) t := by
  unfold execEncode at h
  split at h <;> cases h <;> exact .encode n _

theorem execAllocate_answers {n : Note} {v : Velocity} {s t : State} (h : execAllocate n v s = .next t) :
    Answers s (.allocate n v) t := by
  unfold execAllocate at h
  rcases allocate_cases s.cfg n v s.pool with ⟨j, high, low, _, he, ha⟩ | ⟨_, ha⟩ | ⟨_, _, ha⟩ <;>
    rw [ha] at h <;> cases h
  · exact .allocate n v j high low he
  · exact .allocateRefused n v _
  · exact .allocateRefused n v _

theorem execRelease_answers {n : Note} {s t : State} (h : execRelease n s = .next t) : Answers s (.release n) t := by
  unfold execRelease at h
  split at h
  · cases h
  · next k pool hr =>
    cases h
    obtain ⟨j, _, _, _, _, rfl⟩ := release_keyOffset n s.pool pool k hr
    exact .release n j k
  · cases h
    exact .releaseNotFound n

/-- The one inversion lemma of `exec`: later proofs split on `Answers`. -/
theorem exec_answers {i : Instr} {s t : State} (h : exec i s = .next t) : Answers s i t := by
  cases hw : plainWrites s.cfg i with
  | some ws =>
    cases h.symm.trans (exec_of_plainWrites hw)
    exact .writes i ws hw
  | none =>
    cases i with
    | init => cases h; exact .init
    | keyOn n v => exact execKeyOn_answers h
    | keyOff n => exact execKeyOff_answers h
    | reservedOp3 => cases h; exact .reservedOp3
    | encode n => exact execEncode_answers h
    | allocate n v => exact execAllocate_answers h
    | release n => exact execRelease_answers h
    | poolReset => cases h; exact .poolReset
    | wFnumHi | wFnumLo | wKeyOn | wKeyOff | wTl | wLfo | wMode | wDac | wOpparam | wFbAlg | wPan => cases hw
    | regwrite | velocity | voiceProgram => cases hw

/-! ### What an operation, a row of the sequencer or a step moves -/

/-- The parameters are the same, each slot of the pool is kept, cleared or taken, and `inited` is not cleared. -/
structure Moved (s t : State) : Prop where
  cfg : t.cfg = s.cfg
  pool : PoolMove s.cfg s.pool t.pool
  inited : s.inited = true → t.inited = true

/-- What touches none of the three moves nothing. -/
theorem moved_of_eq {s t : State} (hc : t.cfg = s.cfg) (hp : t.pool = s.pool) (hi : t.inited = s.inited) :
    Moved s t :=
  ⟨hc, hp ▸ poolMove_refl _ _, hi.trans⟩

theorem Moved.poolInv {s t : State} (hm : Moved s t) (h : s.PoolInv) : t.PoolInv := by
  rw [poolInv_iff_slotInv] at h ⊢
  exact fun i => hm.cfg ▸ (hm.pool i).slotInv (h i)

theorem Answers.moved {i : Instr} {s t : State} (h : Answers s i t) : Moved s t := by
  cases h with
  | init => exact ⟨by simp, by simpa using poolMove_empty _ _, by simp⟩
  | keyOnRefused | keyOffRefused | reservedOp3 => exact moved_of_eq (by simp) (by simp) (by simp)
  | keyOn n v j high low he => exact ⟨by simp, by simpa using poolMove_put (.taken n v high low he), by simp⟩
  | keyOff n j k => exact ⟨by simp, by simpa using poolMove_put .cleared, by simp⟩
  | writes i ws hw => exact moved_of_eq (by simp) (by simp) (by simp)
  | encode | allocateRefused | releaseNotFound => exact moved_of_eq rfl rfl rfl
  | allocate n v j high low he => exact ⟨rfl, poolMove_put (.taken n v high low he), id⟩
  | release n j k => exact ⟨rfl, poolMove_put .cleared, id⟩
  | poolReset => exact ⟨rfl, poolMove_empty _ _, id⟩

theorem rowOnAlloc_moved (s : State) : Moved s (rowOnAlloc s) := by
  unfold rowOnAlloc
  rcases allocate_cases s.cfg s.cmd.note s.cmd.vel s.pool with ⟨j, high, low, _, he, ha⟩ | ⟨_, ha⟩ | ⟨_, _, ha⟩ <;>
    rw [ha]
  · exact ⟨rfl, poolMove_put (.taken _ _ high low he), id⟩
  · exact moved_of_eq rfl rfl rfl
  · exact moved_of_eq rfl rfl rfl

theorem rowOffRel_moved {s t : State} (h : rowOffRel s = .next t) : Moved s t := by
  unfold rowOffRel at h
  split at h
  · cases h
  · cases h
    exact moved_of_eq rfl rfl rfl
  · next k pool hr =>
    cases h
    obtain ⟨j, _, _, _, _, rfl⟩ := release_keyOffset _ s.pool pool k hr
    exact ⟨rfl, poolMove_put .cleared, id⟩

theorem rowDone_moved (st : Status) (s : State) : Moved s (rowDone st s) := by
  unfold rowDone
  split <;> exact moved_of_eq rfl rfl rfl

/-- Of the rows of R29, `ON_ALLOC`, `OFF_REL` and `INIT_RUN` write the pool, and `INIT_RUN` sets `inited`. -/
theorem advance_moved {s t : State} (h : advance s = .next t) : Moved s t := by
  have hwrite : ∀ (w : RegWrite) (q : Seq), Moved s { regWrite w s with seq := q } := fun w q =>
    moved_of_eq (regWrite_cfg w s) (regWrite_pool w s) (regWrite_inited w s)
  cases hq : s.seq <;> simp only [advance, hq] at h
  case idle | decode => cases h; exact moved_of_eq rfl rfl rfl
  case onCheck | offCheck => split at h <;> cases h <;> exact moved_of_eq rfl rfl rfl
  case onAlloc => cases h; exact rowOnAlloc_moved s
  case onFhi | onFlo =>
    simp only [rowOnFhi, rowOnFlo] at h
    split at h
    · cases h
    split at h <;> cases h
    exact hwrite _ _
  case onVel =>
    cases h
    exact moved_of_eq (applyVelocity_cfg _ s) (applyVelocity_pool _ s) (applyVelocity_inited _ s)
  case onKey | offKey =>
    simp only [rowOnKey, rowOffKey] at h
    split at h <;> cases h
    exact hwrite _ _
  case offRel => exact rowOffRel_moved h
  case initRun => cases h; exact ⟨by simp, by simpa using poolMove_empty _ _, by simp⟩
  case done st => cases h; exact rowDone_moved st s

/-- What a step does to parameters, pool and `inited`: asserting the reset input is the one way to more than a move
(R36, R240). -/
theorem step_moved {s t : State} (h : step s = .next t) :
    (∃ rest, s.inputs = .resetInput .asserted :: rest ∧ t = State.afterReset s.cfg .asserted rest) ∨ Moved s t := by
  rcases step_cases h with ⟨l, rest, hin, rfl⟩ | ⟨_, rfl⟩ | ⟨_, _, ha⟩ | ⟨_, _, _, w, rest, _, rfl⟩ |
    ⟨_, _, _, w, rest, _, he⟩ | ⟨_, _, _, rfl⟩
  · cases l with
    | asserted => exact .inl ⟨rest, hin, rfl⟩
    | deasserted => exact .inr (moved_of_eq rfl rfl rfl)
  · exact .inr (moved_of_eq (busAdvance_cfg s) (busAdvance_pool s) (busAdvance_inited s))
  · exact .inr (advance_moved ha)
  · exact .inr (moved_of_eq rfl rfl rfl)
  · obtain ⟨hcfg, hpool, hinited⟩ := (exec_answers he).moved
    exact .inr ⟨hcfg, hpool, hinited⟩
  · exact .inr (moved_of_eq rfl rfl rfl)

theorem afterReset_poolInv (c : Params) (l : Line) (rest : List HostEvent) : (State.afterReset c l rest).PoolInv :=
  (poolInv_iff_slotInv _).2 fun i => pool_empty_get i ▸ slotInv_unset c i

/-- Settles O44: asserting the reset input empties the pool, and every other step keeps, clears or takes slots. -/
theorem poolInvariantKept : Obligations.PoolInvariantKept := by
  intro s t hs h
  rcases step_moved h with ⟨rest, _, rfl⟩ | hm
  · exact afterReset_poolInv s.cfg .asserted rest
  · exact hm.poolInv hs

/-- Settles O52: neither an operation nor a step moves the parameters, and a reset block keeps its own. -/
theorem parametersNeverChange : Obligations.ParametersNeverChange := by
  refine ⟨fun i s t h => (exec_answers h).moved.cfg, fun s t h => ?_⟩
  rcases step_moved h with ⟨rest, _, rfl⟩ | hm
  · rfl
  · exact hm.cfg

theorem Answers.inited {i : Instr} {s t : State} (h : Answers s i t) :
    t.inited = (s.inited || decide (i = .init)) := by
  cases h with
  | writes i ws hw =>
    have hi : i ≠ .init := by rintro rfl; cases hw
    simp [hi]
  | _ => simp

/-- Settles O53: `INIT` is the one row that sets `inited`, and a step that is no reset does not clear it. -/
theorem onlyInitSetsInited : Obligations.OnlyInitSetsInited := by
  refine ⟨fun i s t h => (exec_answers h).inited, fun s t h hs ht => ?_⟩
  rcases step_moved h with ⟨rest, hin, _⟩ | hm
  · exact ⟨rest, hin⟩
  · cases ht.symm.trans (hm.inited hs)

/-- The rows that call the pool's operations (R25). -/
theorem Answers.pool_owner {i : Instr} {s t : State} (h : Answers s i t) (hp : t.pool ≠ s.pool) :
    i = .init ∨ i = .poolReset ∨ (∃ n v, i = .keyOn n v ∨ i = .allocate n v) ∨ ∃ n, i = .keyOff n ∨ i = .release n := by
  cases h with
  | init | keyOnRefused | keyOn | keyOffRefused | keyOff => simp
  | allocateRefused | allocate | releaseNotFound | release | poolReset => simp
  | reservedOp3 | encode => exact absurd rfl hp
  | writes i ws hw => exact absurd (regWrites_pool ws s) hp

/-- `ENCODE` and the pool's own operations never touch the bus (R61). -/
theorem Answers.sameBus {i : Instr} {s t : State} (h : Answers s i t)
    (hi : ∃ n v, i = .encode n ∨ i = .allocate n v ∨ i = .release n ∨ i = .poolReset) : SameBus s t := by
  cases h with
  | encode | allocateRefused | allocate | releaseNotFound | release | poolReset => exact ⟨rfl, rfl, rfl, rfl, rfl⟩
  | writes i ws hw => rcases hi with ⟨n, v, rfl | rfl | rfl | rfl⟩ <;> cases hw
  | init | keyOnRefused | keyOn | keyOffRefused | keyOff | reservedOp3 => simp at hi

/-- Settles O54, by what each row can answer. -/
theorem poolAndBusHaveTheirOwners : Obligations.PoolAndBusHaveTheirOwners := fun _ _ _ h =>
  ⟨(exec_answers h).pool_owner, (exec_answers h).sameBus⟩

/-! ### The image follows the log -/

/-- Register writes were logged and entered the image, and nothing else touched either (R33). -/
def LogGrows (s t : State) : Prop := ∃ ws, t.log = s.log ++ ws ∧ t.chip = ws.foldl chipWrite s.chip

theorem logGrows_of_eq {s t : State} (hl : t.log = s.log) (hc : t.chip = s.chip) : LogGrows s t :=
  ⟨[], by simp [hl], hc⟩

theorem Issued.logGrows {ws : List RegWrite} {s t : State} (h : Issued ws s t) : LogGrows s t := by
  obtain ⟨_, _, _, _, _, hlog, hchip⟩ := h
  exact ⟨ws, hlog, hchip⟩

/-- The last phase of a write enters it in log and image; the others enter nothing (R168, R172). -/
theorem busAdvance_logGrows (s : State) : LogGrows s (busAdvance s) := by
  unfold busAdvance
  split
  case h_4 w _ => exact ⟨[w], rfl, rfl⟩
  all_goals exact logGrows_of_eq rfl rfl

/-- A step clears the observer state, when the reset input is asserted, or adds to it (R33, R240). -/
theorem step_observer {s t : State} (h : step s = .next t) : (t.log = [] ∧ t.chip = []) ∨ LogGrows s t := by
  rcases step_cases h with ⟨l, rest, _, rfl⟩ | ⟨_, rfl⟩ | ⟨htx, _, ha⟩ | ⟨_, _, _, w, rest, _, rfl⟩ |
    ⟨htx, _, _, w, rest, _, he⟩ | ⟨_, _, _, rfl⟩
  · cases l with
    | asserted => exact .inl ⟨rfl, rfl⟩
    | deasserted => exact .inr (logGrows_of_eq rfl rfl)
  · exact .inr (busAdvance_logGrows s)
  · obtain ⟨ws, hi, _⟩ := advance_issued s t htx ha
    exact .inr hi.logGrows
  · exact .inr (logGrows_of_eq rfl rfl)
  · obtain ⟨ws, hi, _⟩ := exec_issued w _ t (by rw [accept_tx, htx]) he
    exact .inr hi.logGrows
  · exact .inr (logGrows_of_eq rfl rfl)

theorem foldl_chipWrite_wf (ws : List RegWrite) (m : Memory) (hm : Memory.wf m = true) :
    Memory.wf (ws.foldl chipWrite m) = true :=
  List.foldlRecOn ws chipWrite hm fun m hm w _ => chipWrite_wf m w hm

/-- Settles O46: an empty log has an empty image, and a longer log has the image of its new writes on the old one. -/
theorem imageFollowsLogKept : Obligations.ImageFollowsLogKept := by
  intro s t hs h
  rcases step_observer h with ⟨hlog, hchip⟩ | ⟨ws, hlog, hchip⟩
  · exact ⟨by rw [State.ImageFollowsLog, hlog, hchip, List.foldl_nil], fun _ => by rw [hchip, Memory.wf]⟩
  · refine ⟨?_, fun hm => hchip ▸ foldl_chipWrite_wf ws s.chip hm⟩
    calc t.chip
      _ = ws.foldl chipWrite (s.log.foldl chipWrite []) := by rw [hchip, hs]
      _ = t.log.foldl chipWrite [] := by rw [hlog, List.foldl_append]

/-! ### Reading an `UNSET` note -/

/-- Where the first active slot of a scan has no note, the scan stops there (R23). -/
theorem scanNote_unset {pool : Pool} {is : List (Fin 6)} {i : Fin 6} (note : Note)
    (hi : is.find? (fun j => (pool.slot j).active) = some i) (hn : (pool.slot i).note = none) :
    scanNote note pool is = .error (.unsetField i .note) := by
  induction is with
  | nil => cases hi
  | cons j is ih =>
    rw [List.find?_cons] at hi
    cases ha : (pool.slot j).active <;> rw [ha] at hi
    · simp [scanNote, ha, ih hi]
    · cases hi
      simp [scanNote, ha, hn, readField]

/-- Settles O24: the scan reaches the first active slot and reads its note. -/
theorem releaseStopsOnAnUnsetNote : Obligations.ReleaseStopsOnAnUnsetNote := by
  intro s n i ha hn hlt
  have hscan : scanNote n s.pool scanOrder = .error (.unsetField i .note) :=
    scanNote_unset n ((scan_eq_some _ i).2 ⟨ha, hlt⟩) hn
  simp [exec, execRelease, release, hscan]

/-! ### The rows of the sequencer against the indivisible command -/

/-- `s` in a row of the sequencer, with the value DP holds there: all in which a run row by row differs from the
indivisible command before its end. -/
def inRow (q : Seq) (r : OpResult) (s : State) : State := { s with seq := q, result := r }

@[simp] theorem inRow_cfg (q : Seq) (r : OpResult) (s : State) : (inRow q r s).cfg = s.cfg := rfl
@[simp] theorem inRow_cmd (q : Seq) (r : OpResult) (s : State) : (inRow q r s).cmd = s.cmd := rfl
@[simp] theorem inRow_pool (q : Seq) (r : OpResult) (s : State) : (inRow q r s).pool = s.pool := rfl
@[simp] theorem inRow_seq (q : Seq) (r : OpResult) (s : State) : (inRow q r s).seq = q := rfl
@[simp] theorem inRow_result (q : Seq) (r : OpResult) (s : State) : (inRow q r s).result = r := rfl
@[simp] theorem keyOnCheck_inRow (q : Seq) (r : OpResult) (s : State) (n : Note) :
    keyOnCheck (inRow q r s) n = keyOnCheck s n := rfl
@[simp] theorem keyOffCheck_inRow (q : Seq) (r : OpResult) (s : State) :
    keyOffCheck (inRow q r s) = keyOffCheck s := rfl

/-- Register writes do not look at the row they are issued in. -/
theorem regWrites_inRow (ws : List RegWrite) (q : Seq) (r : OpResult) (s : State) :
    regWrites ws (inRow q r s) = inRow q r (regWrites ws s) := by
  have hbus : SameBus (inRow q r (regWrites ws s)) (regWrites ws (inRow q r s)) :=
    regWrites_congr ws rfl ⟨rfl, rfl, rfl, rfl, rfl⟩
  refine (state_eq ?_ ?_ ?_ ?_ hbus).symm
  all_goals simp [inRow, SameFront, SameControl, SameResponse]

theorem regWrite_inRow (w : RegWrite) (q : Seq) (r : OpResult) (s : State) :
    regWrite w (inRow q r s) = inRow q r (regWrite w s) := regWrites_inRow [w] q r s

/-! Each row, as what it does to `s` and the row it goes to (R29). -/

theorem advance_decode (r : OpResult) (s : State) :
    advance (inRow .decode r s) = .next (inRow (seqAfterDecode s.cmd.op) r s) := rfl

theorem advance_onCheck_refused {s : State} {st : Status} (h : keyOnCheck s s.cmd.note = some st) (r : OpResult) :
    advance (inRow .onCheck r s) = .next (inRow (.done st) r s) := by
  simp only [advance, inRow_seq, inRow_cmd, keyOnCheck_inRow, h]
  rfl

theorem advance_onCheck {s : State} (h : keyOnCheck s s.cmd.note = none) (r : OpResult) :
    advance (inRow .onCheck r s) = .next (inRow .onAlloc r s) := by
  simp only [advance, inRow_seq, inRow_cmd, keyOnCheck_inRow, h]
  rfl

theorem advance_onAlloc_full {s : State} (h : s.pool.Full) (r : OpResult) :
    advance (inRow .onAlloc r s) = .next (inRow (.done .resourceExhausted) r s) := by
  have ha : allocate s.cfg s.cmd.note s.cmd.vel s.pool = .noFreeChannel := by
    rw [allocate, (firstFree_eq_none _).2 h]
  simp only [advance, inRow_seq, rowOnAlloc, inRow_cfg, inRow_cmd, inRow_pool, ha]
  rfl

theorem advance_onAlloc {s : State} {i : Fin 6} {high low : Byte} (hi : s.pool.LowestFree i)
    (he : encodeNote s.cfg s.cmd.note = some (high, low)) (r : OpResult) :
    advance (inRow .onAlloc r s) = .next (inRow .onFhi (.handle i)
      { s with pool := Pool.put s.pool i (allocatedSlot i s.cmd.note s.cmd.vel high low) }) := by
  have ha : allocate s.cfg s.cmd.note s.cmd.vel s.pool =
      .handle i (Pool.put s.pool i (allocatedSlot i s.cmd.note s.cmd.vel high low)) := by
    simp only [allocate, (firstFree_eq_some _ i).2 hi, he]
  simp only [advance, inRow_seq, rowOnAlloc, inRow_cfg, inRow_cmd, inRow_pool, ha]
  rfl

theorem advance_onFhi {s : State} {i : Fin 6} {high : Byte} (h : (s.pool.slot i).frequencyHigh = some high) :
    advance (inRow .onFhi (.handle i) s) = .next (inRow .onFlo (.handle i) (regWrite (freqHiWrite i high) s)) := by
  simp only [advance, inRow_seq, rowOnFhi, heldHandle, inRow_result, inRow_pool, h, readField, regWrite_inRow]
  rfl

theorem advance_onFlo {s : State} {i : Fin 6} {low : Byte} (h : (s.pool.slot i).frequencyLow = some low) :
    advance (inRow .onFlo (.handle i) s) = .next (inRow .onVel (.handle i) (regWrite (freqLoWrite i low) s)) := by
  simp only [advance, inRow_seq, rowOnFlo, heldHandle, inRow_result, inRow_pool, h, readField, regWrite_inRow]
  rfl

theorem advance_onVel (r : OpResult) (s : State) :
    advance (inRow .onVel r s) = .next (inRow .onKey r (applyVelocity s.cmd.vel s)) := by
  simp only [advance, inRow_seq, applyVelocity, regWrites_inRow]
  rfl

theorem advance_onKey (i : Fin 6) (s : State) : advance (inRow .onKey (.handle i) s) =
    .next (inRow (.done .ok) (.handle i) (regWrite (keyOnWrite s.cfg (keyOffsetOf (indexOf i))) s)) := by
  simp only [advance, inRow_seq, rowOnKey, heldHandle, inRow_result, regWrite_inRow]
  rfl

theorem advance_offCheck_refused {s : State} {st : Status} (h : keyOffCheck s = some st) (r : OpResult) :
    advance (inRow .offCheck r s) = .next (inRow (.done st) r s) := by
  simp only [advance, inRow_seq, keyOffCheck_inRow, h]
  rfl

theorem advance_offCheck {s : State} (h : keyOffCheck s = none) (r : OpResult) :
    advance (inRow .offCheck r s) = .next (inRow .offRel r s) := by
  simp only [advance, inRow_seq, keyOffCheck_inRow, h]
  rfl

theorem advance_offRel_error {s : State} {f : Fault} (h : release s.cmd.note s.pool = .error f) (r : OpResult) :
    advance (inRow .offRel r s) = .fault f := by
  simp only [advance, inRow_seq, rowOffRel, inRow_cmd, inRow_pool, h]

theorem advance_offRel_notFound {s : State} (h : release s.cmd.note s.pool = .ok .notFound) (r : OpResult) :
    advance (inRow .offRel r s) = .next (inRow (.done .notFound) r s) := by
  simp only [advance, inRow_seq, rowOffRel, inRow_cmd, inRow_pool, h]
  rfl

theorem advance_offRel {s : State} {k : BitVec 3} {pool : Pool}
    (h : release s.cmd.note s.pool = .ok (.keyOffset k pool)) (r : OpResult) :
    advance (inRow .offRel r s) = .next (inRow .offKey (.keyOffset k) { s with pool := pool }) := by
  simp only [advance, inRow_seq, rowOffRel, inRow_cmd, inRow_pool, h]
  rfl

theorem advance_offKey (k : BitVec 3) (s : State) : advance (inRow .offKey (.keyOffset k) s) =
    .next (inRow (.done .ok) (.keyOffset k) (regWrite (keyOffWrite s.cfg k) s)) := by
  simp only [advance, inRow_seq, rowOffKey, heldKeyOffset, inRow_result, regWrite_inRow]
  rfl

theorem advance_initRun (r : OpResult) (s : State) : advance (inRow .initRun r s) =
    .next (inRow (.done .ok) r { playVoiceProgram (poolReset s) with inited := true }) := by
  have hp : playVoiceProgram (poolReset (inRow .initRun r s)) = inRow .initRun r (playVoiceProgram (poolReset s)) :=
    regWrites_inRow s.cfg.voiceProgram .initRun r (poolReset s)
  simp only [advance, inRow_seq, hp]
  rfl

/-! The rows of a command, from `DECODE` on, one after the other. -/

/-- A run that has one row fewer to go, and goes on where that row leads. -/
theorem advanceRows_inRow {n : Nat} {q : Seq} {r : OpResult} {s t : State} (ha : advance (inRow q r s) = .next t)
    (hq : q ≠ .idle := by decide) : advanceRows (n + 1) (inRow q r s) = advanceRows n t :=
  advanceRows_next hq ha

/-- The end of a command for which DP holds no returned value (R28). -/
theorem advanceRows_done_none (n : Nat) (st : Status) (s : State) :
    advanceRows (n + 1) (inRow (.done st) .none s) = .next (finish st 0 0 s) := by
  rw [advanceRows_done n st _ rfl]
  cases st <;> rfl

theorem advanceRows_decode {n : Nat} {q : Seq} {s : State} (h : seqAfterDecode s.cmd.op = q) :
    advanceRows (n + 1) (inRow .decode .none s) = advanceRows n (inRow q .none s) :=
  advanceRows_inRow (h ▸ advance_decode .none s)

theorem advanceRows_init {s : State} (h : seqAfterDecode s.cmd.op = .initRun) :
    advanceRows 8 (inRow .decode .none s) = execInit s :=
  calc advanceRows 8 (inRow .decode .none s)
    _ = advanceRows 7 (inRow .initRun .none s) := advanceRows_decode h
    _ = advanceRows 6 (inRow (.done .ok) .none _) := advanceRows_inRow (advance_initRun _ s)
    _ = execInit s := advanceRows_done_none 5 .ok _

theorem advanceRows_reservedOp3 {s : State} (h : seqAfterDecode s.cmd.op = .done .illegalCommand) :
    advanceRows 8 (inRow .decode .none s) = execReservedOp3 s :=
  calc advanceRows 8 (inRow .decode .none s)
    _ = advanceRows 7 (inRow (.done .illegalCommand) .none s) := advanceRows_decode h
    _ = execReservedOp3 s := advanceRows_done_none 6 _ s

/-- The rows of a `KEY_ON` that has been given slot `i` (R183 to R186). -/
theorem advanceRows_onFhi {s : State} {i : Fin 6} {high low : Byte} (hh : (s.pool.slot i).frequencyHigh = some high)
    (hl : (s.pool.slot i).frequencyLow = some low) :
    advanceRows 5 (inRow .onFhi (.handle i) s) =
      .next (finish .ok (indexOf i) (keyOffsetOf (indexOf i))
        (regWrites (keyOnWrites s.cfg i high low s.cmd.vel) s)) := by
  have hws : regWrites (keyOnWrites s.cfg i high low s.cmd.vel) s =
      regWrite (keyOnWrite s.cfg (keyOffsetOf (indexOf i)))
        (applyVelocity s.cmd.vel (regWrite (freqLoWrite i low) (regWrite (freqHiWrite i high) s))) := by
    simp [keyOnWrites, applyVelocity, regWrites, List.foldl_append]
  rw [advanceRows_inRow (advance_onFhi hh), advanceRows_inRow (advance_onFlo (by rw [regWrite_pool, hl])),
    advanceRows_inRow (advance_onVel _ _), advanceRows_inRow (advance_onKey i _), advanceRows_done 0 .ok _ rfl, hws]
  simp only [applyVelocity_cfg, regWrite_cfg, regWrite_cmd]
  rfl

/-- `KEY_ON` takes eight rows where it sounds a voice, three or four where it is refused (R186). -/
theorem advanceRows_keyOn {s : State} (h : seqAfterDecode s.cmd.op = .onCheck) :
    advanceRows 8 (inRow .decode .none s) = execKeyOn s.cmd.note s.cmd.vel s := by
  rw [advanceRows_decode h]
  rcases execKeyOn_cases s.cmd.note s.cmd.vel s with ⟨st, hc, he⟩ | ⟨hc, hfull, he⟩ |
    ⟨hc, i, high, low, hfree, henc, he⟩ <;> rw [he]
  · rw [advanceRows_inRow (advance_onCheck_refused hc _), advanceRows_done_none]
    rfl
  · rw [advanceRows_inRow (advance_onCheck hc _), advanceRows_inRow (advance_onAlloc_full hfull _),
      advanceRows_done_none]
    rfl
  · rw [advanceRows_inRow (advance_onCheck hc _), advanceRows_inRow (advance_onAlloc hfree henc _)]
    exact advanceRows_onFhi (by rw [pool_put_get, if_pos rfl]; rfl) (by rw [pool_put_get, if_pos rfl]; rfl)

/-- `KEY_OFF` takes five rows where it silences a voice, fewer where it is refused (R193). -/
theorem advanceRows_keyOff {s : State} (h : seqAfterDecode s.cmd.op = .offCheck) :
    advanceRows 8 (inRow .decode .none s) = execKeyOff s.cmd.note s := by
  rw [advanceRows_decode h]
  rcases execKeyOff_cases s.cmd.note s with ⟨hi, he⟩ | ⟨hi, f, hr, he⟩ | ⟨hi, hr, he⟩ |
    ⟨hi, k, pool, hr, he⟩ <;> rw [he]
  · have hc : keyOffCheck s = some .notInitialised := by simp [keyOffCheck, hi]
    rw [advanceRows_inRow (advance_offCheck_refused hc _), advanceRows_done_none]
    rfl
  all_goals
    have hc : keyOffCheck s = none := by simp [keyOffCheck, hi]
    rw [advanceRows_inRow (advance_offCheck hc _)]
  · simp [advanceRows, advance_offRel_error hr]
  · rw [advanceRows_inRow (advance_offRel_notFound hr _), advanceRows_done_none]
    rfl
  · rw [advanceRows_inRow (advance_offRel hr _), advanceRows_inRow (advance_offKey k _), advanceRows_done 3 .ok _ rfl]
    rfl

/-- Settles O58: both views decode the same `op`, and each command's rows do what the command does. -/
theorem sequencerRefinesTheCommand : Obligations.SequencerRefinesTheCommand := by
  intro s w rest
  unfold decodeHost
  split
  case isTrue h => exact advanceRows_init (s := accept _ _ _ _ s) (by simp [seqAfterDecode, h])
  split
  case isTrue h => exact advanceRows_keyOn (s := accept _ _ _ _ s) (by simp [seqAfterDecode, h])
  split
  case isTrue h => exact advanceRows_keyOff (s := accept _ _ _ _ s) (by simp [seqAfterDecode, h])
  case isFalse h0 h1 h2 =>
    exact advanceRows_reservedOp3 (s := accept _ _ _ _ s)
      (by simp only [seqAfterDecode, accept_cmd, h0, h1, h2, if_false])

/-! ### Waiting, and the phases of a write -/

/-- A write in flight goes on before anything but the reset input (R169). -/
theorem step_of_tx {s : State} (hin : ∀ l rest, s.inputs ≠ .resetInput l :: rest) (htx : s.tx ≠ .none) :
    step s = .next (busAdvance s) := by
  unfold step blockStep
  split
  · next l rest h => exact absurd h (hin l rest)
  · simp [runningStep, htx]
  · simp [runningStep, htx]

/-- Settles O7: nothing is in flight, running or presented, so the step is that of an empty port. -/
theorem idleBlockWaits : Obligations.IdleBlockWaits := by
  intro s htx hb hin
  simp [step, blockStep, runningStep, idleStep, hin, htx, hb]

/-- Settles O9: a write in flight is what the step attends to, and it goes through its phase. -/
theorem writeInFlightRunsOn : Obligations.WriteInFlightRunsOn := by
  intro s w hin
  refine ⟨fun htx => ⟨_, step_of_tx hin (by simp [htx]), ?_⟩, fun htx => ⟨_, step_of_tx hin (by simp [htx]), ?_⟩,
    fun htx => ⟨_, step_of_tx hin (by simp [htx]), ?_⟩⟩
  · simp [busAdvance, htx]
  · simp [busAdvance, htx]
  · simp [busAdvance, htx, State.chipAt, read_chipWrite]

/-- Settles O29, for every configuration, write and pins before it. -/
theorem electricalLevelsOfAWrite : Obligations.ElectricalLevelsOfAWrite := by
  intro c w x
  simp [addressPhase, dataPhase, PinEvent.apply, activeLow, a0Level]

/-- Settles O32, position by position. -/
theorem derivedFieldsOfASlot : Obligations.DerivedFieldsOfASlot := by
  unfold Obligations.DerivedFieldsOfASlot
  decide

/-- Settles O48: at reset log, trace and image are empty and every line is deasserted (R36). -/
theorem observerAtReset : Obligations.ObserverAtReset :=
  ⟨rfl, rfl, rfl, ⟨rfl, rfl, rfl, fun _ => rfl⟩, rfl, rfl, rfl, rfl⟩

end Sys2Proof.Machine
end

section
/-! The statements of 20_memory.md: what a step adds to the bus log and to the pin trace (R66, R69, R170). -/

namespace Sys2Proof.Machine

/-! ### What a step adds to log and trace -/

/-- Only documented writes were issued, each of them whole: log and trace have gained them, and the parameters and the
write in flight are the same. With a write in flight none is issued (R169). -/
structure Appends (ws : List RegWrite) (s t : State) : Prop where
  cfg : t.cfg = s.cfg
  tx : t.tx = s.tx
  log : t.log = s.log ++ ws
  trace : t.trace = s.trace ++ ws.flatMap (writeTrace s.cfg.tSettle)
  free : ws = [] ∨ s.tx = .none
  documented : ∀ w ∈ ws, Documented s.cfg w

/-- What leaves the parameters, the write in flight, the log and the trace alone appends nothing. -/
theorem appends_nil {s t : State} (hc : t.cfg = s.cfg) (hx : t.tx = s.tx) (hl : t.log = s.log)
    (ht : t.trace = s.trace) : Appends [] s t :=
  ⟨hc, hx, by simp [hl], by simp [ht], .inl rfl, by simp⟩

theorem Issued.appends {ws : List RegWrite} {s t : State} (h : Issued ws s t) (hs : s.tx = .none)
    (hd : ∀ w ∈ ws, Documented s.cfg w) : Appends ws s t := by
  obtain ⟨hcfg, _, htx, _, htrace, hlog, _⟩ := h
  exact ⟨hcfg, htx.trans hs.symm, hlog, htrace, .inr hs, hd⟩

/-- Acceptance is not seen on the bus. -/
theorem Appends.of_accept {ws : List RegWrite} {op : BitVec 2} {note : Note} {vel : Velocity} {rest : List HostEvent}
    {s t : State} (h : Appends ws (accept op note vel rest s) t) : Appends ws s t := by
  obtain ⟨hcfg, htx, hlog, htrace, hfree, hdoc⟩ := h
  exact ⟨hcfg, htx, hlog, htrace, hfree, hdoc⟩

/-- A step clears the log and the trace, when the reset input is asserted (R240), takes the write in flight through a
phase (R169), or appends documented writes. -/
theorem step_appends {s t : State} (h : step s = .next t) :
    (∃ rest, s.inputs = .resetInput .asserted :: rest ∧ t = State.afterReset s.cfg .asserted rest) ∨
      t = busAdvance s ∨ ∃ ws, Appends ws s t := by
  rcases step_cases h with ⟨l, rest, hin, rfl⟩ | ⟨_, rfl⟩ | ⟨htx, _, ha⟩ | ⟨_, _, _, w, rest, _, rfl⟩ |
    ⟨htx, _, _, w, rest, _, he⟩ | ⟨_, _, _, rfl⟩
  · cases l with
    | asserted => exact .inl ⟨rest, hin, rfl⟩
    | deasserted => exact .inr (.inr ⟨[], appends_nil rfl rfl rfl rfl⟩)
  · exact .inr (.inl rfl)
  · obtain ⟨ws, hi, hd⟩ := advance_issued s t htx ha
    exact .inr (.inr ⟨ws, hi.appends htx hd⟩)
  · exact .inr (.inr ⟨[], appends_nil rfl rfl rfl rfl⟩)
  · have hacc : (accept (opField w) (noteField w) (velField w) rest s).tx = .none := htx
    obtain ⟨ws, hi, hd⟩ := exec_issued w _ t hacc he
    exact .inr (.inr ⟨ws, (hi.appends hacc hd).of_accept⟩)
  · exact .inr (.inr ⟨[], appends_nil rfl rfl rfl rfl⟩)

/-! ### The trace follows the log -/

/-- Whole writes follow those before them, since no write in flight has events between (R169). -/
theorem Appends.traceFollowsLog {ws : List RegWrite} {s t : State} (h : Appends ws s t) (hs : s.TraceFollowsLog) :
    t.TraceFollowsLog := by
  unfold State.TraceFollowsLog at hs ⊢
  rw [h.trace, h.log, h.cfg, h.tx, hs, List.flatMap_append]
  rcases h.free with rfl | htx
  · simp
  · simp [htx, partialTrace]

/-- Each phase adds its events to those of the write in flight; the last completes the thirteen, as the write enters
the log (R168, R170). -/
theorem busAdvance_traceFollowsLog {s : State} (hs : s.TraceFollowsLog) : (busAdvance s).TraceFollowsLog := by
  unfold State.TraceFollowsLog at hs ⊢
  cases htx : s.tx with
  | none => simp [busAdvance, htx, hs]
  | addr w | data w | recover w => simp [busAdvance, partialTrace, writeTrace, htx, hs]

/-- Settles O47: a step clears log and trace together, or adds to both the same writes or the same phase. -/
theorem traceFollowsLogKept : Obligations.TraceFollowsLogKept := by
  intro s t hs h
  rcases step_appends h with ⟨rest, _, rfl⟩ | rfl | ⟨ws, ha⟩
  · rfl
  · exact busAdvance_traceFollowsLog hs
  · exact ha.traceFollowsLog hs

/-! ### Only documented writes, or the one in flight -/

/-- The one phase of the bus that logs a write is the last of that write (R168). -/
theorem busAdvance_log (s : State) :
    (busAdvance s).log = s.log ∨ ∃ w, s.tx = .recover w ∧ (busAdvance s).log = s.log ++ [w] := by
  unfold busAdvance
  split
  case h_4 w htx => exact .inr ⟨w, htx, rfl⟩
  all_goals exact .inl rfl

/-- Settles O51: a bus phase logs nothing or the write in flight, and what else a step appends is documented. -/
theorem stepsOnlyAppendDocumentedWrites : Obligations.StepsOnlyAppendDocumentedWrites := by
  intro s t hin h
  suffices hws : ∃ ws, t.log = s.log ++ ws ∧ ∀ w ∈ ws, Documented s.cfg w ∨ s.tx = .recover w by
    obtain ⟨ws, hlog, hw⟩ := hws
    refine ⟨ws, hlog, fun w hmem => ?_⟩
    have hdoc : Documented s.cfg w ∨ s.tx = .addr w ∨ s.tx = .data w ∨ s.tx = .recover w :=
      (hw w hmem).imp_right fun htx => .inr (.inr htx)
    simpa only [Documented, or_assoc] using hdoc
  rcases step_appends h with ⟨rest, hreset, _⟩ | rfl | ⟨ws, ha⟩
  · exact absurd hreset (hin rest)
  · rcases busAdvance_log s with hlog | ⟨w, htx, hlog⟩
    · exact ⟨[], by simp [hlog], by simp⟩
    · exact ⟨[w], hlog, by simp [htx]⟩
  · exact ⟨ws, ha.log, fun w hmem => .inl (ha.documented w hmem)⟩

end Sys2Proof.Machine
end

section
/-! The statements of 30_encoding.md: both decoders against the encoder (R94 to R100), the register writes of the
bus classes (R99), and what a step takes from the command port (R93). -/

namespace Sys2Proof

open Machine

/-! ### Host command words -/

/-- The mask `0x18000` keeps the `op` of a word (R94). -/
theorem opField_mask (w : CommandWord) : opField (w &&& 0x18000#17) = opField w := by
  have hmask : BitVec.extractLsb' 15 2 0x18000#17 = BitVec.allOnes 2 := rfl
  rw [opField, opField, BitVec.extractLsb'_and, hmask, BitVec.and_allOnes]

theorem toNat_noteField (w : CommandWord) : (noteField w).toNat = w.toNat / 128 % 256 := by
  rw [noteField, BitVec.extractLsb'_toNat, Nat.shiftRight_eq_div_pow]

theorem toNat_velField (w : CommandWord) : (velField w).toNat = w.toNat % 128 :=
  BitVec.extractLsb'_toNat 0 7 w

theorem decodeHost_op0 {w : CommandWord} (h : opField w = 0) : decodeHost w = .init := by
  simp [decodeHost, h]

theorem decodeHost_op1 {w : CommandWord} (h : opField w = 1) :
    decodeHost w = .keyOn (noteField w) (velField w) := by
  simp [decodeHost, h]

theorem decodeHost_op2 {w : CommandWord} (h : opField w = 2) : decodeHost w = .keyOff (noteField w) := by
  simp [decodeHost, h]

theorem decodeHost_op3 {w : CommandWord} (h : opField w = 3) : decodeHost w = .reservedOp3 := by
  simp [decodeHost, h]

/-- Settles O2: the mask keeps `op`, which selects the command, and the operands are the fields. -/
theorem hostCommandSelectedByOp : Obligations.HostCommandSelectedByOp := by
  intro w
  have hop : ∀ {m : CommandWord}, w &&& 0x18000#17 = m → opField w = opField m := fun h => by
    rw [← h, opField_mask]
  exact ⟨fun h => decodeHost_op0 (hop h),
    fun h => ⟨_, _, decodeHost_op1 (hop h), toNat_noteField w, toNat_velField w⟩,
    fun h => ⟨_, decodeHost_op2 (hop h), toNat_noteField w⟩,
    fun h => decodeHost_op3 (hop h)⟩

/-- Each host command is decoded from its word (R94, R95). -/
theorem decodeHost_hostWord {i : Instr} {w : CommandWord} (h : hostWord i = some w) : decodeHost w = i := by
  cases i <;> cases h
  case init => exact decodeHost_op0 (opField_commandWord 0 0 0)
  case keyOn note vel =>
    rw [decodeHost_op1 (opField_commandWord 1 note vel), noteField_commandWord, velField_commandWord]
  case keyOff note => rw [decodeHost_op2 (opField_commandWord 2 note 0), noteField_commandWord]
  case reservedOp3 => exact decodeHost_op3 (opField_commandWord 3 0 0)

/-! ### Bytes of a command word -/

/-- The three bytes of a number, put together, are its low 24 bits (log 15). -/
theorem append_wordBytes (w : Nat) :
    BitVec.ofNat 8 (w >>> 16) ++ BitVec.ofNat 8 (w >>> 8) ++ BitVec.ofNat 8 w = BitVec.ofNat 24 w := by
  refine BitVec.eq_of_getLsbD_eq fun i hi => ?_
  simp only [BitVec.getLsbD_append, BitVec.getLsbD_ofNat, Nat.testBit_shiftRight]
  split
  case isTrue h0 => simp [h0, hi]
  split
  case isTrue h0 h1 =>
    have hbit : 8 + (i - 8) = i := by omega
    simp [h1, hi, hbit]
  case isFalse h0 h1 =>
    have hbyte : i - 8 - 8 < 8 := by omega
    have hbit : 16 + (i - 8 - 8) = i := by omega
    simp [hbyte, hi, hbit]

/-- The third byte holds bit 16 and what lies above it. -/
theorem toNat_thirdByte_lt_two {w : Nat} (h : w < 2 ^ 24) : (BitVec.ofNat 8 (w >>> 16)).toNat < 2 ↔ w < 2 ^ 17 := by
  rw [BitVec.toNat_ofNat, Nat.shiftRight_eq_div_pow]
  omega

theorem decode_wordBytes {w : Nat} (h : w < 2 ^ 17) :
    decode (wordBytes w) = .ok (decodeHost (BitVec.ofNat 17 w), []) := by
  have hb : (BitVec.ofNat 8 (w >>> 16)).toNat < 2 := (toNat_thirdByte_lt_two (by omega)).2 h
  rw [wordBytes, decode, if_pos hb, append_wordBytes, BitVec.setWidth_ofNat_of_le (by decide)]

theorem decode_wordBytes_above {w : Nat} (h : 2 ^ 17 ≤ w) (h' : w < 2 ^ 24) :
    decode (wordBytes w) = .error .bitsAboveWord := by
  have hb : ¬ (BitVec.ofNat 8 (w >>> 16)).toNat < 2 := fun hb => h.not_gt ((toNat_thirdByte_lt_two h').1 hb)
  rw [wordBytes, decode, if_neg hb]

/-- A number of 24 bits is read as its three bytes. -/
theorem decodeTableWord_24 {w : Nat} (h : w < 2 ^ 24) :
    decodeTableWord 24 w = (decode (wordBytes w)).toOption.map Prod.fst := by
  rw [decodeTableWord, Nat.mod_eq_of_lt h, if_pos h]
  cases decode (wordBytes w) <;> rfl

/-- Settles O5: the bytes put together are the word, and the third is at most 1 exactly below `2 ^ 17`. -/
theorem bytesDecodeAsTheirWord : Obligations.BytesDecodeAsTheirWord := by
  refine fun w => ⟨fun h => ?_, fun h h' => ?_⟩
  · have hd := decode_wordBytes h
    exact ⟨hd, by rw [decodeTableWord_24 (by omega), hd]; rfl⟩
  · have hd := decode_wordBytes_above h h'
    exact ⟨hd, by rw [decodeTableWord_24 h', hd]; rfl⟩

/-! ### The Total-Level sites -/

theorem mem_slots (n : BitVec 2) : n ∈ [0#2, 1#2, 2#2] ↔ slotOk n = true := by
  revert n; decide

theorem mem_operators (op : Operator) : op ∈ [Operator.op1, .op2, .op3, .op4] := by
  cases op <;> decide

/-- A Total-Level site is an operator and a voice slot, with the address they have (R188). -/
theorem mem_tlSites (c : Params) (a : Byte) (op : Operator) (n : BitVec 2) :
    (a, op, n) ∈ tlSites c ↔ slotOk n = true ∧ tlAddress c op n = a := by
  simp only [tlSites, List.mem_flatMap, List.mem_map, Prod.mk.injEq]
  constructor
  · rintro ⟨op', _, n', hn, rfl, rfl, rfl⟩
    exact ⟨(mem_slots n').1 hn, rfl⟩
  · rintro ⟨hn, rfl⟩
    exact ⟨op, mem_operators op, n, (mem_slots n).2 hn, rfl, rfl, rfl⟩

/-- A site found at an address stands there. -/
theorem tlAddress_of_tlSiteAt {c : Params} {a : Byte} {op : Operator} {n : BitVec 2}
    (h : tlSiteAt c a = some (op, n)) : slotOk n = true ∧ tlAddress c op n = a := by
  obtain ⟨⟨b, site⟩, hfind, rfl⟩ := Option.map_eq_some_iff.1 h
  have hb : b = a := by simpa using List.find?_some hfind
  exact (mem_tlSites c a op n).1 (hb ▸ List.mem_of_find?_eq_some hfind)

/-- No site is found at an address only where none stands. -/
theorem tlSiteAt_eq_none {c : Params} {a : Byte} :
    tlSiteAt c a = none ↔ ∀ op n, slotOk n = true → tlAddress c op n ≠ a := by
  simp only [tlSiteAt, Option.map_eq_none_iff, List.find?_eq_none, beq_iff_eq, Prod.forall]
  exact ⟨fun h op n hn ha => h a op n ((mem_tlSites c a op n).2 ⟨hn, ha⟩) rfl,
    fun h b op n hm hb => h op n ((mem_tlSites c b op n).1 hm).1 (((mem_tlSites c b op n).1 hm).2.trans hb)⟩

theorem tlAddr_toList (c : Params) : c.tlAddr.toList = [Operator.op1, .op2, .op3, .op4].map c.tl := by
  refine List.ext_getElem (by simp) fun k hk _ => ?_
  have hk4 : k < 4 := by simpa using hk
  interval_cases k <;> simp [Params.tl]

/-! Grouped as R34 shows them (log 17), the four addresses lie in the per-operator registers, four apart. -/

theorem tl_injective {c : Params} (hc : c.TlGrouped) : Function.Injective c.tl := fun op op' h =>
  List.inj_on_of_nodup_map (tlAddr_toList c ▸ hc.1) (mem_operators op) (mem_operators op') h

theorem tl_range {c : Params} (hc : c.TlGrouped) (op : Operator) :
    0x30 ≤ (c.tl op).toNat ∧ (c.tl op).toNat ≤ 0x9C ∧ (c.tl op).toNat % 4 = 0 :=
  hc.2 _ (tlAddr_toList c ▸ List.mem_map_of_mem (mem_operators op))

/-- No carry crosses from the voice slot into the address it is added to. -/
theorem toNat_tlAddress {c : Params} (hc : c.TlGrouped) (op : Operator) (n : BitVec 2) :
    (tlAddress c op n).toNat = (c.tl op).toNat + n.toNat := by
  obtain ⟨_, hle, _⟩ := tl_range hc op
  rw [tlAddress, slotAddress, BitVec.toNat_add, BitVec.toNat_setWidth_of_le (by decide)]
  omega

/-- A Total-Level address gives back its operator and voice slot. -/
theorem tlAddress_inj {c : Params} (hc : c.TlGrouped) {op op' : Operator} {n n' : BitVec 2}
    (h : tlAddress c op n = tlAddress c op' n') : op = op' ∧ n = n' := by
  have hsum := congrArg BitVec.toNat h
  rw [toNat_tlAddress hc, toNat_tlAddress hc] at hsum
  obtain ⟨_, _, hm⟩ := tl_range hc op
  obtain ⟨_, _, hm'⟩ := tl_range hc op'
  exact ⟨tl_injective hc (BitVec.eq_of_toNat_eq (by omega)), BitVec.eq_of_toNat_eq (by omega)⟩

theorem tlSiteAt_tlAddress {c : Params} (hc : c.TlGrouped) (op : Operator) {n : BitVec 2} (hn : slotOk n = true) :
    tlSiteAt c (tlAddress c op n) = some (op, n) := by
  cases h : tlSiteAt c (tlAddress c op n) with
  | none => exact absurd rfl (tlSiteAt_eq_none.1 h op n hn)
  | some site =>
    obtain ⟨rfl, rfl⟩ := tlAddress_inj hc (tlAddress_of_tlSiteAt h).2
    rfl

/-- Every Total-Level register is a per-operator register (R34). -/
theorem opparamRange_tlAddress {c : Params} (hc : c.TlGrouped) (op : Operator) (n : BitVec 2) :
    opparamRange (tlAddress c op n) = true := by
  obtain ⟨hge, hle, _⟩ := tl_range hc op
  simp only [opparamRange, decide_eq_true_eq, toNat_tlAddress hc]
  omega

theorem tlSiteAt_eq_none_of_opparamRange {c : Params} (hc : c.TlGrouped) {a : Byte} (ha : opparamRange a = false) :
    tlSiteAt c a = none :=
  tlSiteAt_eq_none.2 fun op n _ h => by simp [← h, opparamRange_tlAddress hc] at ha

/-! ### The fields of addresses and data

The base addresses of R99 are multiples of 4, so that adding the voice slot puts it in the low two bits. -/

theorem freqHiAddress_eq (n : BitVec 2) : freqHiAddress n = opparamAddress 0b101001#6 n := by revert n; decide
theorem freqLoAddress_eq (n : BitVec 2) : freqLoAddress n = opparamAddress 0b101000#6 n := by revert n; decide
theorem fbAlgAddress_eq (n : BitVec 2) : slotAddress fbAlgBase n = opparamAddress 0b101100#6 n := by
  revert n; decide
theorem panAddress_eq (n : BitVec 2) : slotAddress panBase n = opparamAddress 0b101101#6 n := by revert n; decide

theorem toNat_opparamAddress (g : BitVec 6) (n : BitVec 2) : (opparamAddress g n).toNat = 4 * g.toNat + n.toNat := by
  rw [opparamAddress, BitVec.toNat_append, ← Nat.shiftLeft_add_eq_or_of_lt n.isLt, Nat.shiftLeft_eq, mul_comm]

@[simp] theorem group_opparamAddress (g : BitVec 6) (n : BitVec 2) : (opparamAddress g n).extractLsb' 2 6 = g :=
  BitVec.extractLsb'_append_eq_left
@[simp] theorem slot_opparamAddress (g : BitVec 6) (n : BitVec 2) : (opparamAddress g n).extractLsb' 0 2 = n :=
  BitVec.extractLsb'_append_eq_right

/-- Every address is a group and a voice slot. -/
theorem opparamAddress_fields (a : Byte) : opparamAddress (a.extractLsb' 2 6) (a.extractLsb' 0 2) = a :=
  BitVec.extractLsb'_append_extractLsb' (w := 6) (len := 2)

theorem keyOnData_eq (k : BitVec 3) : keyOnData k = 0b11110#5 ++ k := by revert k; decide
theorem keyOffData_eq (k : BitVec 3) : keyOffData k = 0#5 ++ k := by revert k; decide

@[simp] theorem high_keyOnData (k : BitVec 3) : (keyOnData k).extractLsb' 3 5 = 0b11110#5 :=
  keyOnData_eq k ▸ BitVec.extractLsb'_append_eq_left
@[simp] theorem low_keyOnData (k : BitVec 3) : (keyOnData k).extractLsb' 0 3 = k :=
  keyOnData_eq k ▸ BitVec.extractLsb'_append_eq_right
@[simp] theorem high_keyOffData (k : BitVec 3) : (keyOffData k).extractLsb' 3 5 = 0#5 :=
  keyOffData_eq k ▸ BitVec.extractLsb'_append_eq_left
@[simp] theorem low_keyOffData (k : BitVec 3) : (keyOffData k).extractLsb' 0 3 = k :=
  keyOffData_eq k ▸ BitVec.extractLsb'_append_eq_right

@[simp] theorem high_fnumHiData (b f : BitVec 3) : (fnumHiData b f).extractLsb' 6 2 = 0#2 := by revert b f; decide
@[simp] theorem block_fnumHiData (b f : BitVec 3) : (fnumHiData b f).extractLsb' 3 3 = b := by revert b f; decide
@[simp] theorem low_fnumHiData (b f : BitVec 3) : (fnumHiData b f).extractLsb' 0 3 = f :=
  BitVec.extractLsb'_append_eq_right

/-- A byte is its high five bits and its low three. -/
theorem append_high_low (d : Byte) : (d.extractLsb' 3 5 ++ d.extractLsb' 0 3 : Byte) = d :=
  BitVec.extractLsb'_append_extractLsb' (w := 5) (len := 3)

theorem keyOnData_fields {d : Byte} (h : d.extractLsb' 3 5 = 0b11110#5) : keyOnData (d.extractLsb' 0 3) = d := by
  rw [keyOnData_eq, ← h]
  exact append_high_low d

theorem keyOffData_fields {d : Byte} (h : d.extractLsb' 3 5 = 0#5) : keyOffData (d.extractLsb' 0 3) = d := by
  rw [keyOffData_eq, ← h]
  exact append_high_low d

theorem fnumHiData_fields {d : Byte} (h : d.extractLsb' 6 2 = 0#2) :
    fnumHiData (d.extractLsb' 3 3) (d.extractLsb' 0 3) = d := by
  have hhigh : d.extractLsb' 6 2 ++ d.extractLsb' 3 3 = d.extractLsb' 3 5 :=
    BitVec.extractLsb'_append_extractLsb'_eq_extractLsb' rfl
  rw [fnumHiData, ← h, hhigh]
  exact append_high_low d

/-! ### The class of a well-formed bus write -/

/-- A write at or above 0x30 is to a Total-Level register or to a per-voice group (R34). -/
theorem decodeBus_of_le {c : Params} {a d : Byte} {p : Port} (ha : 0x30 ≤ a.toNat) :
    decodeBus c (busWord ⟨a, d, p⟩) =
      (tlSiteAt c a).elim (decodeVoice p a d) fun site => .ok (.wTl p site.1 site.2 d) := by
  have hne : ∀ b : Byte, b.toNat < 0x30 → a ≠ b := by rintro b hb rfl; omega
  have hkey := hne keyReg (by decide)
  have hlfo := hne lfoReg (by decide)
  have hmode := hne modeReg (by decide)
  have hdac := hne dacReg (by decide)
  cases h : tlSiteAt c a <;> simp [decodeBus, hkey, hlfo, hmode, hdac, h]

/-- The groups from 0xA0 on lie above the per-operator registers (R34). -/
theorem opparamRange_group {g : BitVec 6} (hg : 0x28 ≤ g.toNat) (n : BitVec 2) :
    opparamRange (opparamAddress g n) = false := by
  rw [opparamRange, decide_eq_false_iff_not, toNat_opparamAddress]
  omega

theorem decodeBus_group {c : Params} {g : BitVec 6} {n : BitVec 2} {d : Byte} {p : Port} (hc : c.TlGrouped)
    (hg : 0x28 ≤ g.toNat) :
    decodeBus c (busWord ⟨opparamAddress g n, d, p⟩) = decodeVoice p (opparamAddress g n) d := by
  rw [decodeBus_of_le (by rw [toNat_opparamAddress]; omega),
    tlSiteAt_eq_none_of_opparamRange hc (opparamRange_group hg n), Option.elim_none]

theorem le_of_opparamRange {a : Byte} (ha : opparamRange a = true) : 0x30 ≤ a.toNat :=
  (of_decide_eq_true ha).1

/-- In a grouped configuration every well-formed bus write is decoded from its word (R99, log 17). -/
theorem decodeBus_busWrite {c : Params} {i : Instr} {v : RegWrite} (hc : c.TlGrouped) (hi : wellFormed c i = true)
    (h : busWrite c i = some v) : decodeBus c (busWord v) = .ok i := by
  cases i <;> cases h <;> simp only [wellFormed] at hi
  case wFnumHi p n b f => simp [freqHiAddress_eq, decodeBus_group hc, decodeVoice, opparamRange_group, hi]
  case wFnumLo p n f => simp [freqLoAddress_eq, decodeBus_group hc, decodeVoice, opparamRange_group, hi]
  case wFbAlg p n d => simp [fbAlgAddress_eq, decodeBus_group hc, decodeVoice, opparamRange_group, hi]
  case wPan p n d => simp [panAddress_eq, decodeBus_group hc, decodeVoice, opparamRange_group, hi]
  case wKeyOn k => simp [decodeBus, decodeKey, hi]
  case wKeyOff k => simp [decodeBus, decodeKey, hi]
  case wLfo p d => simp [decodeBus, keyReg, lfoReg]
  case wMode p d => simp [decodeBus, keyReg, lfoReg, modeReg]
  case wDac p d => simp [decodeBus, keyReg, lfoReg, modeReg, dacReg]
  case wTl p op n d =>
    rw [decodeBus_of_le (le_of_opparamRange (opparamRange_tlAddress hc op n)), tlSiteAt_tlAddress hc op hi,
      Option.elim_some]
  case wOpparam p g n d =>
    obtain ⟨⟨hn, ha⟩, hsite⟩ := by simpa only [Bool.and_eq_true] using hi
    rw [decodeBus_of_le (le_of_opparamRange ha), Option.isNone_iff_eq_none.1 hsite, Option.elim_none]
    simp [decodeVoice, hn, ha]

theorem encode_of_hostWord {c : Params} {i : Instr} {v : CommandWord} (h : hostWord i = some v) :
    encode c i = some v := by
  rw [encode, h, Option.some_or]

theorem encode_of_busWrite {c : Params} {i : Instr} {v : RegWrite} (h : busWrite c i = some v) :
    encode c i = some (busWord v) := by
  cases i <;> cases h <;> rfl

/-- Settles O3: a row has one format, and its word is that format's word. -/
theorem decodeInvertsEncode : Obligations.DecodeInvertsEncode := by
  refine fun c i w hc hi hw => ⟨fun ⟨v, hv⟩ => ?_, fun ⟨v, hv⟩ => ?_⟩
  · cases hw.symm.trans (encode_of_hostWord hv)
    exact decodeHost_hostWord hv
  · cases hw.symm.trans (encode_of_busWrite hv)
    exact decodeBus_busWrite hc hi hv

/-! ### What a bus word that decodes stands for -/

/-- A bus word is built from its fields (R96). -/
theorem busWord_fields (w : BusWord) : busWord ⟨busAddress w, busData w, busPort w⟩ = w := by
  have hhigh : busPort w ++ busAddress w = w.extractLsb' 8 (1 + 8) :=
    BitVec.extractLsb'_append_extractLsb'_eq_extractLsb' rfl
  rw [busWord, hhigh]
  exact BitVec.extractLsb'_append_extractLsb' (w := 9) (len := 8)

theorem decodeKey_sound {c : Params} {p : Port} {d : Byte} {i : Instr} (h : decodeKey c p d = .ok i) :
    wellFormed c i = true ∧ busWrite c i = some ⟨keyReg, d, p⟩ := by
  unfold decodeKey at h
  split_ifs at h with hp hk hon hoff <;> cases h <;>
    simp only [ne_eq, not_not, Bool.not_eq_false] at hp hk
  · simp [wellFormed, busWrite, keyOnData_fields hon, hk, hp]
  · simp [wellFormed, busWrite, keyOffData_fields hoff, hk, hp]

theorem decodeVoice_sound {c : Params} {p : Port} {a d : Byte} {i : Instr} (hs : tlSiteAt c a = none)
    (h : decodeVoice p a d = .ok i) : wellFormed c i = true ∧ busWrite c i = some ⟨a, d, p⟩ := by
  have ha := opparamAddress_fields a
  simp only [decodeVoice] at h
  split_ifs at h with hdoc hn hop hhi hz hlo hfb <;> cases h <;> simp only [Bool.not_eq_false] at hn
  · simp [wellFormed, busWrite, ha, hn, hop, hs]
  · simp [wellFormed, busWrite, freqHiAddress_eq, ← hhi, ha, hn, fnumHiData_fields hz]
  · simp [wellFormed, busWrite, freqLoAddress_eq, ← hlo, ha, hn]
  · simp [wellFormed, busWrite, fbAlgAddress_eq, ← hfb, ha, hn]
  · have hpan : a.extractLsb' 2 6 = 0b101101#6 := by simpa [hop, hhi, hlo, hfb] using hdoc
    simp [wellFormed, busWrite, panAddress_eq, ← hpan, ha, hn]

/-- A bus word that decodes is the write of a well-formed row, whatever the configuration (R99). -/
theorem decodeBus_sound {c : Params} {w : BusWord} {i : Instr} (h : decodeBus c w = .ok i) :
    wellFormed c i = true ∧ busWrite c i = some ⟨busAddress w, busData w, busPort w⟩ := by
  simp only [decodeBus] at h
  split_ifs at h with hkey hlfo hmode hdac
  · exact hkey ▸ decodeKey_sound h
  · cases h; exact ⟨rfl, hlfo ▸ rfl⟩
  · cases h; exact ⟨rfl, hmode ▸ rfl⟩
  · cases h; exact ⟨rfl, hdac ▸ rfl⟩
  · split at h
    · next op n hs =>
      cases h
      obtain ⟨hn, ha⟩ := tlAddress_of_tlSiteAt hs
      exact ⟨hn, ha ▸ rfl⟩
    · next hs => exact decodeVoice_sound hs h

/-- Settles O4: what a word decodes to has that word, and a word decodes to one row. -/
theorem encodeInvertsBusDecode : Obligations.EncodeInvertsBusDecode := by
  refine ⟨fun c i w h => ?_, fun c i j v hc hi hj hvi hvj => ?_⟩
  · obtain ⟨hi, hv⟩ := decodeBus_sound h
    exact ⟨hi, by rw [encode_of_busWrite hv, busWord_fields]⟩
  · have hsame : Except.ok i = Except.ok j := (decodeBus_busWrite hc hi hvi).symm.trans (decodeBus_busWrite hc hj hvj)
    exact Except.ok.inj hsame

end Sys2Proof

namespace Sys2Proof.Machine

/-! ### The bus-write classes performed by themselves -/

theorem plainWrites_of_busWrite {c : Params} {i : Instr} {w : RegWrite} (h : busWrite c i = some w) :
    plainWrites c i = some [w] := by
  cases i <;> cases h <;> rfl

/-- A bus-write class performed by itself is its one register write, from rest (R99, log 17). -/
theorem exec_busWrite {s : State} {i : Instr} {w : RegWrite} (hs : s.tx = .none) (h : busWrite s.cfg i = some w) :
    ∃ t, exec i s = .next t ∧ Wrote [w] s t ∧ t.pool = s.pool ∧ SameFront s t ∧ SameResponse s t ∧
      SameControl s t :=
  ⟨_, exec_of_plainWrites (plainWrites_of_busWrite h), regWrites_wrote [w] s hs, regWrites_pool [w] s,
    regWrites_sameFront [w] s, regWrites_sameResponse [w] s, regWrites_sameControl [w] s⟩

/-- Settles O30: the write of each class has the address and data of its pattern. -/
theorem noteBusClassesWrite : Obligations.NoteBusClassesWrite := by
  refine fun s hs => ⟨fun p n b f => exec_busWrite hs ?_, fun p n f => exec_busWrite hs ?_,
    fun k => exec_busWrite hs ?_, fun k => exec_busWrite hs ?_, fun p op n a => exec_busWrite hs rfl⟩
  · rw [busWrite, freqHiAddress_eq]; rfl
  · rw [busWrite, freqLoAddress_eq]; rfl
  · rw [busWrite, keyOnData_eq]; rfl
  · rw [busWrite, keyOffData_eq]; rfl

/-- Settles O31: the write of each class has the address and data of its pattern. -/
theorem voiceBusClassesWrite : Obligations.VoiceBusClassesWrite := by
  refine fun s hs => ⟨fun p d => exec_busWrite hs rfl, fun p d => exec_busWrite hs rfl,
    fun p d => exec_busWrite hs rfl, fun p x n d => exec_busWrite hs rfl, fun p n d => exec_busWrite hs ?_,
    fun p n d => exec_busWrite hs ?_⟩
  · rw [busWrite, fbAlgAddress_eq]; rfl
  · rw [busWrite, panAddress_eq]; rfl

/-! ### Words the spec writes out -/

/-- The default Total-Level addresses are grouped (R8, R34). -/
theorem defaultParams_tlGrouped (alg : Fin 8) (t : Nat) (ws : List RegWrite) (a0 : BitVec 1) :
    (defaultParams alg t ws a0).TlGrouped := by
  show defaultTlAddr.toList.Nodup ∧ ∀ a ∈ defaultTlAddr.toList, 0x30 ≤ a.toNat ∧ a.toNat ≤ 0x9C ∧ a.toNat % 4 = 0
  decide

/-- Settles O1: the host words by evaluation, the bus words as those of their classes. -/
theorem specWordsDecode : Obligations.SpecWordsDecode := by
  refine ⟨by decide, by decide, by decide, by decide, by decide, by decide, by decide, by decide, by decide,
    fun alg t ws a0 => ?_⟩
  have hc := defaultParams_tlGrouped alg t ws a0
  exact ⟨decodeBus_busWrite (v := ⟨0xA4, 0x11, 0⟩) hc rfl rfl, decodeBus_busWrite (v := ⟨0xA0, 0x05, 0⟩) hc rfl rfl,
    decodeBus_busWrite (v := ⟨0x4D, 0x24, 1⟩) hc rfl rfl, decodeBus_busWrite (v := ⟨0x28, 0xF4, 0⟩) hc rfl rfl,
    decodeBus_busWrite (v := ⟨0x28, 0x06, 0⟩) hc rfl rfl⟩

/-! ### The command port -/

/-- An idle block accepts the word on the port and runs its command (R93, R12). -/
theorem step_of_idle {s : State} {w : CommandWord} {rest : List HostEvent} (htx : s.tx = .none)
    (hbusy : s.busy = false) (hreset : s.pins.reset = .deasserted) (hin : s.inputs = .command w :: rest) :
    step s = exec (decodeHost w) (accept (opField w) (noteField w) (velField w) rest s) := by
  simp [step, blockStep, runningStep, idleStep, hin, htx, hbusy, hreset]

/-- Settles O6: a presented word finds the block idle. -/
theorem stepRunsThePresentedCommand : Obligations.StepRunsThePresentedCommand := by
  refine ⟨fun s w rest => step_of_idle, fun s nbits w hw _ => ?_⟩
  rw [State.withFetchWord, Nat.mod_eq_of_lt hw]
  exact step_of_idle rfl rfl rfl rfl

/-! ### The port of a busy block -/

/-- `s` with something else at the command port. -/
def withPort (port : List HostEvent) (s : State) : State := { s with inputs := port }

@[simp] theorem withPort_cfg (port : List HostEvent) (s : State) : (withPort port s).cfg = s.cfg := rfl
@[simp] theorem withPort_cmd (port : List HostEvent) (s : State) : (withPort port s).cmd = s.cmd := rfl
@[simp] theorem withPort_pool (port : List HostEvent) (s : State) : (withPort port s).pool = s.pool := rfl
@[simp] theorem withPort_seq (port : List HostEvent) (s : State) : (withPort port s).seq = s.seq := rfl
@[simp] theorem withPort_tx (port : List HostEvent) (s : State) : (withPort port s).tx = s.tx := rfl
@[simp] theorem withPort_result (port : List HostEvent) (s : State) : (withPort port s).result = s.result := rfl
@[simp] theorem keyOnCheck_withPort (port : List HostEvent) (s : State) (n : Note) :
    keyOnCheck (withPort port s) n = keyOnCheck s n := rfl
@[simp] theorem keyOffCheck_withPort (port : List HostEvent) (s : State) :
    keyOffCheck (withPort port s) = keyOffCheck s := rfl
@[simp] theorem heldHandle_withPort (port : List HostEvent) (s : State) :
    heldHandle (withPort port s) = heldHandle s := rfl
@[simp] theorem heldKeyOffset_withPort (port : List HostEvent) (s : State) :
    heldKeyOffset (withPort port s) = heldKeyOffset s := rfl
@[simp] theorem poolReset_withPort (port : List HostEvent) (s : State) :
    poolReset (withPort port s) = withPort port (poolReset s) := rfl

theorem busAdvance_withPort (port : List HostEvent) (s : State) :
    busAdvance (withPort port s) = withPort port (busAdvance s) := by
  simp only [busAdvance, withPort_tx]
  cases s.tx <;> rfl

/-- Register writes do not look at the port. -/
theorem regWrites_withPort (ws : List RegWrite) (port : List HostEvent) (s : State) :
    regWrites ws (withPort port s) = withPort port (regWrites ws s) := by
  have hbus : SameBus (withPort port (regWrites ws s)) (regWrites ws (withPort port s)) :=
    regWrites_congr ws rfl ⟨rfl, rfl, rfl, rfl, rfl⟩
  refine (state_eq ?_ ?_ ?_ ?_ hbus).symm
  all_goals simp [withPort, SameFront, SameControl, SameResponse]

theorem regWrite_withPort (w : RegWrite) (port : List HostEvent) (s : State) :
    regWrite w (withPort port s) = withPort port (regWrite w s) := regWrites_withPort [w] port s

/-- A running command's two answers, the second with `port` at the command port: the same but for the port, and a next
state leaves the port and the latched operands alone (R73, R93). -/
inductive SameButPort (port : List HostEvent) (s : State) :
    Host.Outcome State Fault Refusal → Host.Outcome State Fault Refusal → Prop
  | next (t : State) (hin : t.inputs = s.inputs) (hcmd : t.cmd = s.cmd) :
      SameButPort port s (.next t) (.next (withPort port t))
  | fault (f : Fault) : SameButPort port s (.fault f) (.fault f)

/-- No row of R29 looks at the port. -/
theorem advance_sameButPort (port : List HostEvent) (s : State) :
    SameButPort port s (advance s) (advance (withPort port s)) := by
  have hwrite : ∀ (w : RegWrite) (q : Seq), SameButPort port s (.next { regWrite w s with seq := q })
      (.next { withPort port (regWrite w s) with seq := q }) := fun w q =>
    .next _ (regWrite_inputs w s) (regWrite_cmd w s)
  cases hq : s.seq <;> simp only [advance, withPort_seq, hq]
  case idle | decode => exact .next _ rfl rfl
  case onCheck | offCheck =>
    simp only [keyOnCheck_withPort, keyOffCheck_withPort, withPort_cmd]
    split <;> exact .next _ rfl rfl
  case onAlloc =>
    simp only [rowOnAlloc, withPort_cfg, withPort_cmd, withPort_pool]
    split <;> exact .next _ rfl rfl
  case onFhi | onFlo =>
    simp only [rowOnFhi, rowOnFlo, heldHandle_withPort, withPort_pool, regWrite_withPort]
    split
    · exact .fault _
    split
    · exact .fault _
    · exact hwrite _ _
  case onVel =>
    simp only [applyVelocity, withPort_cfg, withPort_cmd, regWrites_withPort]
    exact .next _ (regWrites_inputs _ s) (regWrites_cmd _ s)
  case onKey | offKey =>
    simp only [rowOnKey, rowOffKey, heldHandle_withPort, heldKeyOffset_withPort, withPort_cfg, regWrite_withPort]
    split
    · exact .fault _
    · exact hwrite _ _
  case offRel =>
    simp only [rowOffRel, withPort_cmd, withPort_pool]
    split
    · exact .fault _
    · exact .next _ rfl rfl
    · exact .next _ rfl rfl
  case initRun =>
    simp only [playVoiceProgram, poolReset_withPort, withPort_cfg, regWrites_withPort]
    exact .next _ (regWrites_inputs _ _) (regWrites_cmd _ _)
  case done st =>
    simp only [rowDone, withPort_result]
    split <;> exact .next _ rfl rfl

/-- Without the reset input, a step goes on with what is in flight (R169, R93). -/
theorem step_of_busy {s : State} (hin : ∀ l rest, s.inputs ≠ .resetInput l :: rest) (hbusy : s.busy = true) :
    step s = if s.tx ≠ .none then .next (busAdvance s) else advance s := by
  unfold step blockStep
  split
  · next l rest h => exact absurd h (hin l rest)
  · simp [runningStep, hbusy]
  · simp [runningStep, hbusy]

/-- A busy block's step sees nothing at the port but the reset input (R73, R93). -/
theorem step_sameButPort {port : List HostEvent} {s : State} (hbusy : s.busy = true)
    (hin : ∀ l rest, s.inputs ≠ .resetInput l :: rest) (hport : ∀ l rest, port ≠ .resetInput l :: rest) :
    SameButPort port s (step s) (step (withPort port s)) := by
  rw [step_of_busy hin hbusy, step_of_busy (s := withPort port s) hport hbusy, withPort_tx]
  split
  · rw [busAdvance_withPort]
    exact .next _ (busAdvance_inputs s) (busAdvance_cmd s)
  · exact advance_sameButPort port s

/-- Settles O8: a bus phase and a row of the sequencer are the same whatever stands on the port. -/
theorem busyBlockIgnoresThePort : Obligations.BusyBlockIgnoresThePort := by
  intro s t w rest hbusy hin h
  have hsame : ∀ port, (∀ l later, port ≠ .resetInput l :: later) →
      t.inputs = s.inputs ∧ t.cmd = s.cmd ∧ step (withPort port s) = .next (withPort port t) := fun port hport => by
    have hp := step_sameButPort hbusy (by simp [hin]) hport
    rw [h] at hp
    generalize step (withPort port s) = o at hp ⊢
    cases hp with
    | next _ hti htc => exact ⟨hti, htc, rfl⟩
  obtain ⟨hti, htc, _⟩ := hsame [] (by simp)
  exact ⟨hti.trans hin, htc, fun port hport => (hsame port hport).2.2⟩

end Sys2Proof.Machine
end

section
/-! The statements of 40_frequency_encoder.md: the encoder against the rules over exact rationals (R123 to R128),
its bytes as bit fields (R127), `block` along the scale (R130), and notes above 131 (R121). -/

namespace Sys2Proof.Machine

/-! ### Legal notes and notes above 131 -/

/-- `ENCODE` raises RangeError on a note above 131 (R121). -/
theorem encodeNote_of_lt {n : Note} (c : Params) (h : 131 < n.toNat) : encodeNote c n = none :=
  (encodeNote_eq_none c n).2 (decide_eq_true h)

/-- `ENCODE` packs the frequency code of a legal note (R127). -/
theorem encodeNote_of_le {n : Note} (c : Params) (h : n.toNat ≤ 131) :
    encodeNote c n =
      some (packHigh (frequencyCode c n).1 (frequencyCode c n).2, packLow (frequencyCode c n).1) :=
  if_neg fun hr => not_lt.2 h (of_decide_eq_true hr)

/-- Settles O14: `ENCODE` has no bytes for the note, and its RangeError is all that is returned. -/
theorem encodeRejectsNotesAbove131 : Obligations.EncodeRejectsNotesAbove131 := by
  intro s n hn
  show execEncode n s = _
  rw [execEncode, encodeNote_of_lt s.cfg hn]

/-- Settles O21: of `ALLOCATE`'s three answers, a handle needs a note that encodes and NoFreeChannel a full
pool. -/
theorem allocateOfANoteAbove131 : Obligations.AllocateOfANoteAbove131 := by
  intro s n v hn hfree
  show execAllocate n v s = _
  rcases allocate_cases s.cfg n v s.pool with ⟨_, _, _, _, he, _⟩ | ⟨hfull, _⟩ | ⟨_, _, ha⟩
  · cases he.symm.trans (encodeNote_of_lt s.cfg hn)
  · exact absurd hfull hfree
  · rw [execAllocate, ha]

/-! ### The rules over exact rationals -/

/-- The model's fraction is the document's rational `F0` (R124). -/
theorem frequency_eq_div (c : Params) (n : Note) :
    Spec.frequency c n = ((scaledFrequency c n).1 : ℚ) / (scaledFrequency c n).2 := by
  have hscale : (2 : ℚ) ^ (((n.toNat / 12 : Nat) : Int) - 5) = 2 ^ (n.toNat / 12) / 2 ^ 5 := by
    rw [zpow_sub₀ two_ne_zero, zpow_natCast]
    rfl
  rw [Spec.frequency, hscale, div_mul_div_comm]
  push_cast [scaledFrequency]
  rfl

/-- `k` halvings of the rational `F0` double the denominator of the model's fraction `k` times (R125). -/
theorem frequency_div_two_pow (c : Params) (n : Note) (k : Nat) :
    Spec.frequency c n / 2 ^ k =
      ((scaledFrequency c n).1 : ℚ) / ((scaledFrequency c n).2 * 2 ^ k : Nat) := by
  rw [frequency_eq_div, div_div]
  push_cast
  rfl

/-- Halving the rational is comparing integers: `F0 / 2^k < 2048` cleared of its denominator (R128). -/
theorem frequency_div_lt_iff {c : Params} (n : Note) (k : Nat) (hden : 0 < c.baseDen) :
    Spec.frequency c n / 2 ^ k < 2048 ↔
      (scaledFrequency c n).1 < fnumLimit * ((scaledFrequency c n).2 * 2 ^ k) := by
  have hpos : 0 < (scaledFrequency c n).2 * 2 ^ k := by simp [scaledFrequency, hden]
  rw [frequency_div_two_pow, div_lt_iff₀ (Nat.cast_pos.2 hpos), fnumLimit]
  exact_mod_cast Iff.rfl

/-- The least number of halvings of the model's fraction gives the code of the rational algorithm (R125, R126). -/
theorem LeastHalvings.isCode {c : Params} {n : Note} {k : Nat} (hden : 0 < c.baseDen)
    (hk : LeastHalvings (scaledFrequency c n).1 (scaledFrequency c n).2 k) :
    Spec.IsCode c n ((scaledFrequency c n).1 / ((scaledFrequency c n).2 * 2 ^ k)) (blockInit + k) := by
  refine ⟨k, (frequency_div_lt_iff n k hden).2 hk.1, fun j hj => ?_, ?_, rfl⟩
  · exact not_lt.1 fun hlt => not_lt.2 (hk.2 j hj) ((frequency_div_lt_iff n j hden).1 hlt)
  · rw [frequency_div_two_pow, Nat.floor_div_eq_div]

/-- The model's code is the code of the rational algorithm (R123 to R126). -/
theorem isCode_frequencyCode {c : Params} (n : Note) (hden : 0 < c.baseDen) :
    Spec.IsCode c n (frequencyCode c n).1 (frequencyCode c n).2 := by
  obtain ⟨k, hk, hcode⟩ := frequencyCode_spec c n hden
  rw [hcode]
  exact hk.isCode hden

/-- Settles O13: `ENCODE` packs the model's code, which is the rational algorithm's. -/
theorem encodeFollowsTheRationalAlgorithm : Obligations.EncodeFollowsTheRationalAlgorithm := by
  intro s n hn hden
  refine ⟨_, _, isCode_frequencyCode n hden, ?_⟩
  show execEncode n s = _
  rw [execEncode, encodeNote_of_le s.cfg hn]
  rfl

/-! ### The integer-only form -/

/-- The model's code, given the least number of halvings (R128). -/
theorem LeastHalvings.frequencyCode_eq {c : Params} {n : Note} {k : Nat} (hden : 0 < c.baseDen)
    (hk : LeastHalvings (scaledFrequency c n).1 (scaledFrequency c n).2 k) :
    frequencyCode c n = ((scaledFrequency c n).1 / ((scaledFrequency c n).2 * 2 ^ k), blockInit + k) := by
  obtain ⟨l, hl, hcode⟩ := frequencyCode_spec c n hden
  rw [hcode, leastHalvings_unique _ _ _ _ hl hk]

/-- Settles O15: `A / B` is the model's fraction, so both algorithms give the code of its least halvings. -/
theorem integerFormOfTheEncoder : Obligations.IntegerFormOfTheEncoder := by
  intro c n k hden A B hlt hge
  have hB : (scaledFrequency c n).2 = B := Nat.mul_comm c.baseDen 32
  have hk : LeastHalvings (scaledFrequency c n).1 (scaledFrequency c n).2 k := by
    simp only [LeastHalvings, hB, fnumLimit, ← Nat.mul_assoc]
    exact ⟨hlt, hge⟩
  rw [← hB]
  exact ⟨hk.isCode hden, hk.frequencyCode_eq hden⟩

/-! ### The bytes as bit fields -/

/-- The normalised frequency is below 2048, so its floor is an 11-bit `fnum` (R126). -/
theorem frequencyCode_fst_lt {c : Params} (n : Note) (hden : 0 < c.baseDen) : (frequencyCode c n).1 < fnumLimit := by
  obtain ⟨k, hk, hcode⟩ := frequencyCode_spec c n hden
  rw [hcode]
  exact Nat.div_lt_of_lt_mul (Nat.mul_comm fnumLimit _ ▸ hk.1)

/-- Masking with 7 keeps the low three bits. -/
theorem and_seven_eq_toNat (x : Nat) : x &&& 0x7 = (BitVec.ofNat 3 x).toNat :=
  Nat.and_two_pow_sub_one_eq_mod x 3

/-- The mask, shift and or of R127 are the concatenation of two 3-bit fields. -/
theorem ofNat_or_shiftLeft_eq_fnumHiData (b f : BitVec 3) :
    BitVec.ofNat 8 (f.toNat ||| b.toNat <<< 3) = fnumHiData b f := by
  revert b f; decide

/-- `highByte` is `00`, `block[2:0]`, `fnum[10:8]`: the data byte of `W_FNUM_HI` (R127). -/
theorem packHigh_eq_fnumHiData (fnum block : Nat) :
    packHigh fnum block = fnumHiData (BitVec.ofNat 3 block) ((BitVec.ofNat 11 fnum).extractLsb' 8 3) := by
  have hfield : (BitVec.ofNat 11 fnum).extractLsb' 8 3 = BitVec.ofNat 3 (fnum >>> 8) := by
    apply BitVec.eq_of_toNat_eq
    simp only [BitVec.extractLsb'_toNat, BitVec.toNat_ofNat, Nat.shiftRight_eq_div_pow]
    omega
  rw [packHigh, and_seven_eq_toNat, and_seven_eq_toNat, ofNat_or_shiftLeft_eq_fnumHiData, hfield]

/-- `lowByte` is `fnum[7:0]` (R127). -/
theorem packLow_eq_extractLsb' (fnum : Nat) : packLow fnum = (BitVec.ofNat 11 fnum).extractLsb' 0 8 := by
  have hmask : fnum &&& 0xFF = fnum % 2 ^ 8 := Nat.and_two_pow_sub_one_eq_mod fnum 8
  apply BitVec.eq_of_toNat_eq
  simp only [packLow, hmask, BitVec.extractLsb'_toNat, BitVec.toNat_ofNat, Nat.shiftRight_zero]
  omega

/-- A byte whose top two bits are clear is at most 0x3F (R127). -/
theorem toNat_fnumHiData_le (b f : BitVec 3) : (fnumHiData b f).toNat ≤ 0x3F := by
  revert b f; decide

/-- Settles O16: the bytes are the packing of the model's code, whose two halves are those bit fields. -/
theorem bytesPackBlockAndFnum : Obligations.BytesPackBlockAndFnum := by
  intro c n high low hden he
  obtain ⟨rfl, rfl⟩ : packHigh (frequencyCode c n).1 (frequencyCode c n).2 = high ∧
      packLow (frequencyCode c n).1 = low := by
    simpa [encodeNote_of_le c (toNat_le_of_encodeNote he)] using he
  refine ⟨_, _, rfl, Nat.le_of_lt_succ (frequencyCode_fst_lt n hden), ?_, packHigh_eq_fnumHiData _ _,
    packLow_eq_extractLsb' _⟩
  rw [packHigh_eq_fnumHiData]
  exact toNat_fnumHiData_le _ _

/-! ### `block` along the scale -/

/-- In a table that meets R9 (c) a higher note has no lower frequency, within an octave and from one octave to a
later one (R130). -/
theorem scaledFrequency_mono {c : Params} {n m : Note} (hc : c.TableAscending) (hnm : n.toNat ≤ m.toNat) :
    (scaledFrequency c n).1 ≤ (scaledFrequency c m).1 := by
  obtain ⟨hmono, hoctave⟩ := hc
  show c.base (semitone n) * 2 ^ octaveIndex n ≤ c.base (semitone m) * 2 ^ octaveIndex m
  have hoct : octaveIndex n ≤ octaveIndex m := Nat.div_le_div_right hnm
  rcases hoct.eq_or_lt with heq | hlt
  · have hsemi : semitone n ≤ semitone m := by
      simp only [octaveIndex, semitones] at heq
      simp only [semitone, Fin.mk_le_mk, semitones]
      omega
    rw [heq]
    exact Nat.mul_le_mul_right _ (hmono _ _ hsemi)
  · calc c.base (semitone n) * 2 ^ octaveIndex n
      _ ≤ c.base 11 * 2 ^ octaveIndex n := Nat.mul_le_mul_right _ (hmono _ _ (Fin.le_last _))
      _ ≤ 2 * c.base 0 * 2 ^ octaveIndex n := Nat.mul_le_mul_right _ hoctave
      _ = c.base 0 * 2 ^ (octaveIndex n + 1) := by ring
      _ ≤ c.base (semitone m) * 2 ^ octaveIndex m :=
        Nat.mul_le_mul (hmono _ _ (Fin.zero_le _)) (Nat.pow_le_pow_right two_pos hlt)

/-- Settles O18: the halvings that are enough for the higher note are enough for the lower one. -/
theorem blockNeverFalls : Obligations.BlockNeverFalls := by
  intro c n m hden hc hnm _
  obtain ⟨k, hk, hn⟩ := frequencyCode_spec c n hden
  obtain ⟨l, hl, hm⟩ := frequencyCode_spec c m hden
  have hkl : k ≤ l := hk.le ((scaledFrequency_mono hc hnm).trans_lt hl.1)
  rw [hn, hm]
  exact Nat.add_le_add_left hkl blockInit

end Sys2Proof.Machine
end

section
/-! The statements of 41_channel_allocator.md: what `ALLOCATE`, `RELEASE` and `POOL_RESET` do by themselves (R141 to
R147), the number of active slots (R149 item 3), that every operation is total (R148, R199), and `KEY_OFF` as the
undoing of `KEY_ON` (R149 item 6). -/

namespace Sys2Proof.Machine

/-! ### One slot of the pool -/

@[simp] theorem slot_put_same (pool : Pool) (i : Fin 6) (sl : Slot) : (Pool.put pool i sl).slot i = sl := by
  rw [pool_put_get, if_pos rfl]

theorem slot_put_of_ne (pool : Pool) {i j : Fin 6} (sl : Slot) (h : j ≠ i) :
    (Pool.put pool i sl).slot j = pool.slot j := by
  rw [pool_put_get, if_neg h.symm]

/-- Writing a slot back gives the pool as it was. -/
theorem put_put_slot (pool : Pool) (i : Fin 6) (sl : Slot) : Pool.put (Pool.put pool i sl) i (pool.slot i) = pool := by
  simp [Pool.put, Pool.slot]

/-- In a consistent pool an inactive slot is the sentinel (R24). -/
theorem slot_eq_unset {pool : Pool} {i : Fin 6} (hc : pool.Consistent) (hi : (pool.slot i).active = false) :
    pool.slot i = Slot.unset := by
  obtain ⟨hindex, hnote, hhigh, hlow, hvel⟩ := (hc i).2.1 hi
  exact (Slot.mk.injEq ..).mpr ⟨hi, hindex, hnote, hhigh, hlow, hvel⟩

theorem lowestFree_unique {pool : Pool} {i j : Fin 6} (hi : pool.LowestFree i) (hj : pool.LowestFree j) : i = j :=
  Option.some.inj (((firstFree_eq_some pool i).2 hi).symm.trans ((firstFree_eq_some pool j).2 hj))

theorem not_full_of_lowestFree {pool : Pool} {i : Fin 6} (h : pool.LowestFree i) : ¬ pool.Full :=
  fun hfull => absurd ((hfull i).symm.trans h.1) (by decide)

theorem firstHolds_unique {pool : Pool} {i j : Fin 6} {n : Note} (hi : pool.FirstHolds i n)
    (hj : pool.FirstHolds j n) : i = j :=
  le_antisymm (not_lt.1 fun h => hi.2 j h hj.1) (not_lt.1 fun h => hj.2 i h hi.1)

/-- Writing the pool and returning a value to DP leaves every other part of the block (R61, R140). -/
theorem returned_frame (pool : Pool) (r : OpResult) (s : State) :
    let t := { s with pool := pool, result := r }
    SameFront s t ∧ SameBus s t ∧ SameResponse s t ∧ t.inited = s.inited ∧ t.busy = s.busy ∧ t.seq = s.seq :=
  ⟨⟨rfl, rfl, rfl⟩, ⟨rfl, rfl, rfl, rfl, rfl⟩, ⟨rfl, rfl, rfl, rfl⟩, rfl, rfl, rfl⟩

/-! ### `ALLOCATE` -/

/-- All that `ALLOCATE` by itself can answer (R141, R142; log 19). -/
theorem execAllocate_cases (n : Note) (v : Velocity) (s : State) :
    (∃ i high low, s.pool.LowestFree i ∧ encodeNote s.cfg n = some (high, low) ∧
      execAllocate n v s = .next
        { s with pool := Pool.put s.pool i (allocatedSlot i n v high low), result := .handle i }) ∨
    (s.pool.Full ∧ execAllocate n v s = .next { s with result := .noFreeChannel }) ∨
    ((∃ i, s.pool.LowestFree i) ∧ encodeNote s.cfg n = none ∧
      execAllocate n v s = .next { s with result := .rangeError n }) := by
  unfold execAllocate
  rcases allocate_cases s.cfg n v s.pool with ⟨i, high, low, hi, he, ha⟩ | ⟨hfull, ha⟩ | ⟨hi, he, ha⟩ <;> rw [ha]
  · exact .inl ⟨i, high, low, hi, he, rfl⟩
  · exact .inr (.inl ⟨hfull, rfl⟩)
  · exact .inr (.inr ⟨hi, he, rfl⟩)

theorem execEncode_of_some {n : Note} {s : State} {high low : Byte} (he : encodeNote s.cfg n = some (high, low)) :
    execEncode n s = .next { s with result := .bytes high low } := by
  rw [execEncode, he]

theorem execEncode_of_none {n : Note} {s : State} (he : encodeNote s.cfg n = none) :
    execEncode n s = .next { s with result := .rangeError n } := by
  rw [execEncode, he]

/-- A legal note has bytes (R121). -/
theorem encodeNote_ne_none {n : Note} (c : Params) (h : n.toNat ≤ 131) : encodeNote c n ≠ none := by
  simp [encodeNote_of_le c h]

/-- Settles O20: of `ALLOCATE`'s three answers, the other two need a free slot. -/
theorem allocateOnAFullPool : Obligations.AllocateOnAFullPool := by
  intro s n v hfull
  rcases execAllocate_cases n v s with ⟨i, _, _, hi, _, _⟩ | ⟨_, h⟩ | ⟨⟨i, hi⟩, _, _⟩
  · exact absurd hfull (not_full_of_lowestFree hi)
  · exact h
  · exact absurd hfull (not_full_of_lowestFree hi)

/-- Settles O19: a free slot and a legal note leave of `ALLOCATE`'s three answers the handle. -/
theorem allocateTakesTheLowestFreeSlot : Obligations.AllocateTakesTheLowestFreeSlot := by
  refine fun s n v hn => ⟨fun i hi => ?_, allocateOnAFullPool s n v⟩
  rcases execAllocate_cases n v s with ⟨j, high, low, hj, he, h⟩ | ⟨hfull, _⟩ | ⟨_, he, _⟩
  · obtain rfl := lowestFree_unique hi hj
    exact ⟨high, low, _, execEncode_of_some he, h, rfl, slot_put_same _ _ _,
      fun j hj => slot_put_of_ne _ _ hj, returned_frame _ _ s⟩
  · exact absurd hfull (not_full_of_lowestFree hi)
  · exact absurd he (encodeNote_ne_none s.cfg hn)

/-! ### `RELEASE` and `POOL_RESET` -/

/-- All that `RELEASE` by itself can answer, in any pool (R144, R145, R23). -/
theorem execRelease_cases (n : Note) (s : State) :
    (∃ f, release n s.pool = .error f ∧ execRelease n s = .fault f) ∨
    (release n s.pool = .ok .notFound ∧ execRelease n s = .next { s with result := .notFound }) ∨
    (∃ k pool, release n s.pool = .ok (.keyOffset k pool) ∧
      execRelease n s = .next { s with pool := pool, result := .keyOffset k }) := by
  unfold execRelease
  cases hr : release n s.pool with
  | error f => exact .inl ⟨f, rfl, rfl⟩
  | ok r =>
    cases r with
    | notFound => exact .inr (.inl ⟨rfl, rfl⟩)
    | keyOffset k pool => exact .inr (.inr ⟨k, pool, rfl, rfl⟩)

/-- A consistent pool has no `UNSET` field that a scan reads (R24). -/
theorem release_ne_error {n : Note} {pool : Pool} (hc : pool.Consistent) (f : Fault) : release n pool ≠ .error f := by
  rcases release_cases n pool hc with ⟨_, _, _, _, hr⟩ | ⟨_, hr⟩ <;> simp [hr]

/-- The release of a held note frees its first slot, whose index is its position (R144, R26). -/
theorem release_of_firstHolds {n : Note} {pool : Pool} {i : Fin 6} (hc : pool.Consistent) (hx : pool.Indexed)
    (hi : pool.FirstHolds i n) :
    release n pool = .ok (.keyOffset (keyOffsetOf (indexOf i)) (Pool.put pool i Slot.unset)) := by
  rcases release_cases n pool hc with ⟨j, index, hj, hindex, hr⟩ | ⟨hnone, _⟩
  · obtain rfl := firstHolds_unique hi hj
    have hpos : index = indexOf i := by simpa [hindex, indexOf] using hx i
    rw [hr, hpos]
  · exact absurd hi.1 (hnone i)

theorem release_of_unheld {n : Note} {pool : Pool} (hc : pool.Consistent) (hn : ∀ i, ¬ pool.Holds i n) :
    release n pool = .ok .notFound := by
  rcases release_cases n pool hc with ⟨i, _, hi, _, _⟩ | ⟨_, hr⟩
  · exact absurd hi.1 (hn i)
  · exact hr

/-- The `keyOffset` of a position is that of R22's table. -/
theorem keyOffsetOf_indexOf (i : Fin 6) : keyOffsetOf (indexOf i) = BitVec.ofNat 3 (Spec.keyOffset i) := by
  revert i; decide

/-- Settles O23, by what `RELEASE` does in a pool that does not hold the note. -/
theorem releaseOfAnUnheldNote : Obligations.ReleaseOfAnUnheldNote := by
  intro s n hc hn
  simp only [exec, execRelease, release_of_unheld hc hn]

/-- Settles O22: the slot's index is its position, so the `keyOffset` read is the position's. -/
theorem releaseFreesTheFirstMatch : Obligations.ReleaseFreesTheFirstMatch := by
  refine fun s n hc hx => ⟨fun i hi => ?_, releaseOfAnUnheldNote s n hc⟩
  have h : exec (.release n) s = .next { s with
      pool := Pool.put s.pool i Slot.unset, result := .keyOffset (keyOffsetOf (indexOf i)) } := by
    simp only [exec, execRelease, release_of_firstHolds hc hx hi]
  exact ⟨_, h, congrArg OpResult.keyOffset (keyOffsetOf_indexOf i), slot_put_same _ _ _,
    fun j hj => slot_put_of_ne _ _ hj, returned_frame _ _ s⟩

/-- Settles O25: the pool is all that `POOL_RESET` writes. -/
theorem poolResetClearsEverySlot : Obligations.PoolResetClearsEverySlot := fun s =>
  ⟨poolReset s, rfl, pool_empty_get, ⟨rfl, rfl, rfl⟩, ⟨rfl, rfl, rfl, rfl, rfl⟩, ⟨rfl, rfl, rfl, rfl⟩,
    ⟨rfl, rfl, rfl, rfl⟩⟩

/-- Settles O45, as every state right after a reset. -/
theorem poolInvariantAtReset : Obligations.PoolInvariantAtReset := afterReset_poolInv _ _ _

/-! ### The number of active slots -/

theorem activeCount_le_six (pool : Pool) : pool.activeCount ≤ 6 := List.length_filter_le _ scanOrder

theorem activeCount_of_full {pool : Pool} (h : pool.Full) : pool.activeCount = 6 := by
  rw [Pool.activeCount, List.filter_eq_self.2 fun i _ => h i]
  rfl

@[simp] theorem activeCount_empty : Pool.empty.activeCount = 0 := by
  simp [Pool.activeCount, Slot.unset]

theorem length_filter_eq_sum_toNat {α : Type} (p : α → Bool) (xs : List α) :
    (xs.filter p).length = (xs.map fun x => (p x).toNat).sum := by
  induction xs with
  | nil => rfl
  | cons x xs ih => cases h : p x <;> simp [h, ih, add_comm]

/-- The count as a sum over the positions. -/
theorem activeCount_eq_sum (pool : Pool) : pool.activeCount = ∑ i, (pool.slot i).active.toNat := by
  rw [Fin.sum_univ_def]
  exact length_filter_eq_sum_toNat _ scanOrder

/-- Writing one slot changes the count by what that slot held and what it holds. -/
theorem activeCount_put (pool : Pool) (i : Fin 6) (sl : Slot) :
    (Pool.put pool i sl).activeCount + (pool.slot i).active.toNat = pool.activeCount + sl.active.toNat := by
  have hrest : ∑ j ∈ Finset.univ.erase i, ((Pool.put pool i sl).slot j).active.toNat =
      ∑ j ∈ Finset.univ.erase i, (pool.slot j).active.toNat :=
    Finset.sum_congr rfl fun j hj => by rw [slot_put_of_ne _ _ (Finset.ne_of_mem_erase hj)]
  have hold := Finset.add_sum_erase Finset.univ (fun j => (pool.slot j).active.toNat) (Finset.mem_univ i)
  have hnew := Finset.add_sum_erase Finset.univ (fun j => ((Pool.put pool i sl).slot j).active.toNat)
    (Finset.mem_univ i)
  simp only [slot_put_same] at hnew
  rw [activeCount_eq_sum, activeCount_eq_sum]
  omega

theorem activeCount_allocated {pool : Pool} {i : Fin 6} (hi : (pool.slot i).active = false) (n : Note) (v : Velocity)
    (high low : Byte) :
    (Pool.put pool i (allocatedSlot i n v high low)).activeCount = pool.activeCount + 1 := by
  simpa [hi, allocatedSlot] using activeCount_put pool i (allocatedSlot i n v high low)

theorem activeCount_released {pool : Pool} {i : Fin 6} (hi : (pool.slot i).active = true) :
    (Pool.put pool i Slot.unset).activeCount + 1 = pool.activeCount := by
  simpa [hi, Slot.unset] using activeCount_put pool i Slot.unset

/-- `ALLOCATE` adds one active slot, or keeps the pool, which with a legal note is then full (R141, R142). -/
theorem execAllocate_activeCount {n : Note} {v : Velocity} {s t : State} (h : execAllocate n v s = .next t) :
    t.pool.activeCount = s.pool.activeCount + 1 ∨ t.pool = s.pool ∧ (n.toNat ≤ 131 → s.pool.Full) := by
  rcases execAllocate_cases n v s with ⟨i, high, low, hi, _, ha⟩ | ⟨hfull, ha⟩ | ⟨_, he, ha⟩ <;>
    cases h.symm.trans ha
  · exact .inl (activeCount_allocated hi.1 n v high low)
  · exact .inr ⟨rfl, fun _ => hfull⟩
  · exact .inr ⟨rfl, fun hn => absurd he (encodeNote_ne_none s.cfg hn)⟩

/-- `RELEASE` takes one active slot away, or keeps the pool, in any pool (R144, R145). -/
theorem execRelease_activeCount {n : Note} {s t : State} (h : execRelease n s = .next t) :
    t.pool.activeCount + 1 = s.pool.activeCount ∨ t.pool = s.pool := by
  rcases execRelease_cases n s with ⟨f, _, he⟩ | ⟨_, he⟩ | ⟨k, pool, hr, he⟩ <;> cases h.symm.trans he
  · exact .inr rfl
  · obtain ⟨i, _, hi, _, _, rfl⟩ := release_keyOffset n s.pool pool k hr
    exact .inl (activeCount_released hi)

/-- Settles O26: a pool with one more active slot is not the pool before. -/
theorem activeSlotsAreCounted : Obligations.ActiveSlotsAreCounted := by
  refine fun s t => ⟨activeCount_le_six _, fun n v h => (execAllocate_activeCount h).imp_right And.left,
    fun n v hn h hp => ?_, fun n h => execRelease_activeCount h, fun h => ?_⟩
  · rcases execAllocate_activeCount h with hcount | ⟨_, hfull⟩
    · rw [hp] at hcount
      omega
    · exact activeCount_of_full (hfull hn)
  · cases h
    exact activeCount_empty

/-! ### Every operation is total -/

/-- An operation answers a next state, or stops where its `RELEASE` reads an `UNSET` field (R148, R199, R23). -/
theorem exec_next_or_fault (i : Instr) (s : State) :
    (∃ t, exec i s = .next t) ∨ ∃ n f, release n s.pool = .error f ∧ exec i s = .fault f := by
  cases i with
  | keyOn n v =>
    rcases execKeyOn_cases n v s with ⟨_, _, h⟩ | ⟨_, _, h⟩ | ⟨_, _, _, _, _, _, h⟩ <;> exact .inl ⟨_, h⟩
  | keyOff n =>
    rcases execKeyOff_cases n s with ⟨_, h⟩ | ⟨_, f, hr, h⟩ | ⟨_, _, h⟩ | ⟨_, _, _, _, h⟩
    case inr.inl => exact .inr ⟨n, f, hr, h⟩
    all_goals exact .inl ⟨_, h⟩
  | encode n =>
    cases he : encodeNote s.cfg n with
    | none => exact .inl ⟨_, execEncode_of_none he⟩
    | some b => exact .inl ⟨_, execEncode_of_some he⟩
  | allocate n v =>
    rcases execAllocate_cases n v s with ⟨_, _, _, _, _, h⟩ | ⟨_, h⟩ | ⟨_, _, h⟩ <;> exact .inl ⟨_, h⟩
  | release n =>
    rcases execRelease_cases n s with ⟨f, hr, h⟩ | ⟨_, h⟩ | ⟨_, _, _, h⟩
    · exact .inr ⟨n, f, hr, h⟩
    all_goals exact .inl ⟨_, h⟩
  | init | reservedOp3 | poolReset => exact .inl ⟨_, rfl⟩
  | wFnumHi | wFnumLo | wKeyOn | wKeyOff | wTl | wLfo | wMode | wDac | wOpparam | wFbAlg | wPan => exact .inl ⟨_, rfl⟩
  | regwrite | velocity | voiceProgram => exact .inl ⟨_, rfl⟩

/-- Settles O43: `RELEASE` is the one place to stop, on an `UNSET` field, which a consistent pool does not have. -/
theorem everyOperationIsTotal : Obligations.EveryOperationIsTotal := by
  intro i s
  rcases exec_next_or_fault i s with ⟨t, h⟩ | ⟨n, f, hr, h⟩
  · exact ⟨fun _ => ⟨t, h⟩, by simp [h], by simp [h]⟩
  · refine ⟨fun hc => absurd hr (release_ne_error hc f), fun g hg => ?_, by simp [h]⟩
    cases h.symm.trans hg
    exact release_error n s.pool f hr

/-! ### `KEY_OFF` right after `KEY_ON` -/

theorem keyOnCheck_eq_none {s : State} {n : Note} (hinit : s.inited = true) (hn : n.toNat ≤ 131) :
    keyOnCheck s n = none := by
  have hr : outOfRange n = false := decide_eq_false (not_lt.2 hn)
  simp [keyOnCheck, hinit, hr]

/-- What a note command that ends with OK leaves behind: the pool `pool`, the answer, and the writes `ws` at the pins,
with the flags and the host's side as they were. -/
structure Completed (pool : Pool) (ws : List RegWrite) (index keyoff : BitVec 3) (s t : State) : Prop where
  pool : t.pool = pool
  ended : Ended .ok index keyoff t
  wrote : Wrote ws s t
  inited : t.inited = s.inited
  front : SameFront s t

/-- A new pool, register writes from rest and the end of the command complete it. -/
theorem completed_finish (pool : Pool) (ws : List RegWrite) (index keyoff : BitVec 3) {s : State} (hs : s.tx = .none) :
    Completed pool ws index keyoff s (finish .ok index keyoff (regWrites ws { s with pool := pool })) where
  pool := regWrites_pool ws _
  ended := finish_ended _ _ _ _
  wrote := wrote_to (wrote_from (regWrites_wrote ws { s with pool := pool } hs) rfl ⟨rfl, rfl, rfl, rfl, rfl⟩)
    (finish_sameBus _ _ _ _)
  inited := regWrites_inited ws _
  front := regWrites_sameFront ws { s with pool := pool }

/-- With a free slot an initialised block sounds a legal note on the lowest one (R186). -/
theorem execKeyOn_sounds {n : Note} (v : Velocity) {s : State} (hs : s.tx = .none) (hinit : s.inited = true)
    (hn : n.toNat ≤ 131) (hfree : ¬ s.pool.Full) :
    ∃ i high low t, s.pool.LowestFree i ∧ encodeNote s.cfg n = some (high, low) ∧ execKeyOn n v s = .next t ∧
      Completed (Pool.put s.pool i (allocatedSlot i n v high low)) (keyOnWrites s.cfg i high low v) (indexOf i)
        (keyOffsetOf (indexOf i)) s t := by
  rcases execKeyOn_cases n v s with ⟨st, hc, _⟩ | ⟨_, hfull, _⟩ | ⟨_, i, high, low, hi, he, h⟩
  · simp [keyOnCheck_eq_none hinit hn] at hc
  · exact absurd hfull hfree
  · exact ⟨i, high, low, _, hi, he, h, completed_finish _ _ _ _ hs⟩

/-- An initialised block silences the first slot that holds the note (R193). -/
theorem execKeyOff_silences {n : Note} {s : State} {i : Fin 6} (hs : s.tx = .none) (hinit : s.inited = true)
    (hc : s.pool.Consistent) (hx : s.pool.Indexed) (hi : s.pool.FirstHolds i n) :
    ∃ t, execKeyOff n s = .next t ∧
      Completed (Pool.put s.pool i Slot.unset) [keyOffWrite s.cfg (keyOffsetOf (indexOf i))] 0
        (keyOffsetOf (indexOf i)) s t := by
  have hr := release_of_firstHolds hc hx hi
  rcases execKeyOff_cases n s with ⟨hno, _⟩ | ⟨_, f, hf, _⟩ | ⟨_, hf, _⟩ | ⟨_, k, pool, hk, h⟩
  · cases hno.symm.trans hinit
  · cases hf.symm.trans hr
  · cases hf.symm.trans hr
  · cases hk.symm.trans hr
    exact ⟨_, h, completed_finish _ [_] _ _ hs⟩

/-- A note that no slot held is first held where it has just been allocated. -/
theorem firstHolds_allocated {pool : Pool} {n : Note} (hn : ∀ i, ¬ pool.Holds i n) (i : Fin 6) (v : Velocity)
    (high low : Byte) : (Pool.put pool i (allocatedSlot i n v high low)).FirstHolds i n := by
  refine ⟨by simp [Pool.Holds, allocatedSlot], fun j hj h => hn j ?_⟩
  rwa [Pool.Holds, slot_put_of_ne _ _ hj.ne] at h

/-- Settles O57: `KEY_OFF` frees the slot `KEY_ON` took, which was the sentinel before. -/
theorem keyOffUndoesKeyOn : Obligations.KeyOffUndoesKeyOn := by
  intro s n v ⟨htx, _, _, _⟩ hinv hinit hn hfree hunheld
  obtain ⟨i, high, low, t, hi, _, hon, ht⟩ := execKeyOn_sounds v htx hinit hn hfree
  obtain ⟨htpool, ⟨htstatus, _, htkeyoff, _⟩, ⟨_, _, _, httx, _⟩, htinited, ⟨htcfg, _⟩⟩ := ht
  obtain ⟨hcons, hindexed, _⟩ := (execKeyOn_answers hon).moved.poolInv hinv
  have hheld : t.pool.FirstHolds i n := htpool ▸ firstHolds_allocated hunheld i v high low
  obtain ⟨u, hoff, hu⟩ := execKeyOff_silences httx (htinited.trans hinit) hcons hindexed hheld
  obtain ⟨hupool, ⟨hustatus, _, hukeyoff, _⟩, ⟨hulog, _⟩, _, _⟩ := hu
  have hback : u.pool = s.pool := by
    rw [hupool, htpool, ← slot_eq_unset hinv.1 hi.1, put_put_slot]
  refine ⟨t, u, hon, hoff, htstatus, hustatus, hukeyoff.trans htkeyoff.symm, hback, ?_⟩
  rw [hulog, htcfg, htkeyoff]
  rfl

end Sys2Proof.Machine
end

section
/-! The statements of 42_register_bus.md: what one `REGWRITE` does (R160 to R172), the discipline and the duration of a
list of writes (R169, R174), and the lines that are deasserted between strobes (R167, R173). -/

namespace Sys2Proof.Machine

/-! ### One register write -/

/-- The thirteen events of R170, with the three values of the write in their places. -/
theorem writeTrace_eq (t : Nat) (w : RegWrite) : writeTrace t w =
    [.psel w.port, .dsel .deasserted, .dbus w.address, .strobe .asserted, .settle t, .strobe .deasserted,
      .dsel .asserted, .dbus w.data, .strobe .asserted, .settle t, .strobe .deasserted,
      .dsel .deasserted, .settle t] := rfl

/-- The location of the write holds its data, and every other location what it held (R172). -/
theorem Wrote.chipAt {w : RegWrite} {s t : State} (h : Wrote [w] s t) (p : Port) (a : Byte) :
    t.chipAt p a = if w.port = p ∧ w.address = a then some w.data else s.chipAt p a := by
  obtain ⟨_, _, _, _, hchip⟩ := h
  rw [hchip]
  by_cases hw : w.port = p ∧ w.address = a <;> simp [lastWritten, hw]

/-- Settles O27: `REGWRITE` is the one write of its operands, and leaves every part before the pins. -/
theorem regwriteFollowsTheProtocol : Obligations.RegwriteFollowsTheProtocol := by
  intro s a d p hs
  have hwrote := regWrite_wrote ⟨a, d, p⟩ s hs
  have hchip := hwrote.chipAt
  obtain ⟨hlog, htrace, hpins, htx, _⟩ := hwrote
  refine ⟨regWrite ⟨a, d, p⟩ s, rfl, ?_, hpins, htx, hlog, ?_, fun q b hne => ?_, regWrite_pool _ s,
    regWrites_sameFront [_] s, regWrites_sameResponse [_] s, regWrites_sameControl [_] s⟩
  · rw [htrace, List.flatMap_singleton, writeTrace_eq]
  · rw [hchip, if_pos ⟨rfl, rfl⟩]
  · rw [hchip, if_neg fun h => hne ⟨h.1.symm, h.2.symm⟩]

/-! ### Lists of writes -/

/-- Each write starts and ends with the strobes deasserted, so writes in a row keep R169 as one does. -/
theorem writeTraces_disciplined (t : Nat) (ws : List RegWrite) :
    disciplined .deasserted (ws.flatMap (writeTrace t)) = true := by
  induction ws with
  | nil => rfl
  | cons w ws ih => rw [List.flatMap_cons, writeTrace_disciplined, ih]

/-- The waits of one write are its three settle delays (R174). -/
theorem leastTime_writeTrace (t : Nat) (w : RegWrite) (rest : List PinEvent) :
    leastTime (writeTrace t w ++ rest) = 3 * t + leastTime rest := by
  simp only [writeTrace_eq, List.cons_append, List.nil_append, leastTime]
  omega

theorem leastTime_writeTraces (t : Nat) (ws : List RegWrite) :
    leastTime (ws.flatMap (writeTrace t)) = ws.length * (3 * t) := by
  induction ws with
  | nil => simp [leastTime]
  | cons w ws ih =>
    rw [List.flatMap_cons, leastTime_writeTrace, ih, List.length_cons, Nat.succ_mul ws.length, Nat.add_comm]

/-- Settles O28: both hold of the events of one write, whatever follows them. -/
theorem writesKeepTheBusDiscipline : Obligations.WritesKeepTheBusDiscipline := fun t ws =>
  ⟨writeTraces_disciplined t ws, leastTime_writeTraces t ws⟩

/-! ### The lines between strobes -/

/-- Writes issued whole leave the strobes and data-select deasserted, and do not move `RD` (R167, R173). -/
theorem Issued.pinsQuiet {ws : List RegWrite} {s t : State} (h : Issued ws s t) (hs : s.tx = .none)
    (hq : s.PinsQuiet) : t.PinsQuiet := by
  obtain ⟨_, _, _, hpins, _⟩ := h
  obtain ⟨hrd, hcs, hwr, hdsel⟩ := hq
  unfold State.PinsQuiet
  rw [hpins, pinsAfter]
  split
  · exact ⟨hrd, hcs, hwr, fun _ => hdsel hs⟩
  · exact ⟨hrd, rfl, rfl, fun _ => rfl⟩

/-- Each phase of a write ends with the strobes released, and the last with data-select too (R164, R166, R167). -/
theorem busAdvance_pinsQuiet {s : State} (hq : s.PinsQuiet) : (busAdvance s).PinsQuiet := by
  have ⟨hrd, hcs, hwr, _⟩ := hq
  unfold busAdvance
  split
  · exact hq
  · exact ⟨hrd, rfl, rfl, fun h => nomatch h⟩
  · exact ⟨hrd, rfl, rfl, fun h => nomatch h⟩
  · exact ⟨hrd, hcs, hwr, fun _ => rfl⟩

theorem hardwareReset_pinsQuiet (l : Line) (rest : List HostEvent) {s : State} (hq : s.PinsQuiet) :
    (hardwareReset l rest s).PinsQuiet := by
  cases l with
  | asserted => exact ⟨rfl, rfl, rfl, fun _ => rfl⟩
  | deasserted => exact hq

/-- Settles O49: a step resets the pins, takes a write through a phase, issues whole writes from rest, or leaves the
pins alone. -/
theorem pinsStayQuiet : Obligations.PinsStayQuiet := by
  intro s t hq h
  rcases step_cases h with ⟨l, rest, _, rfl⟩ | ⟨_, rfl⟩ | ⟨htx, _, ha⟩ | ⟨_, _, _, w, rest, _, rfl⟩ |
    ⟨htx, _, _, w, rest, _, he⟩ | ⟨_, _, _, rfl⟩
  · exact hardwareReset_pinsQuiet l rest hq
  · exact busAdvance_pinsQuiet hq
  · obtain ⟨ws, hi, _⟩ := advance_issued s t htx ha
    exact hi.pinsQuiet htx hq
  · exact hq
  · have hacc : (accept (opField w) (noteField w) (velField w) rest s).tx = .none := htx
    obtain ⟨ws, hi, _⟩ := exec_issued w _ t hacc he
    exact hi.pinsQuiet hacc hq
  · exact hq

end Sys2Proof.Machine
end

section
/-! The statements of 43_composite_ops.md: the attenuation (R187), `VELOCITY` and `VOICE_PROGRAM` as their writes
(R188, R195), `INIT` (R196), and the whole of `KEY_ON`, `KEY_OFF` and the reserved code (R181 to R194, R200). -/

namespace Sys2Proof.Machine

/-! ### The composite's writes and the spec's own tables -/

/-- The table of R189, row by row. -/
theorem audible_eq_spec (alg : Fin 8) : audible alg = Spec.audible alg := by
  revert alg; decide

/-- Subtraction on bytes is the low 8 bits of the difference of integers (R187). -/
theorem attenuation_eq_ofInt (v : Velocity) : attenuation v = BitVec.ofInt 8 (100 - (v.toNat : Int)) := by
  have hv := v.isLt
  have href : velRef.toNat = 100 := rfl
  apply BitVec.eq_of_toNat_eq
  rw [attenuation, BitVec.toNat_sub, BitVec.toNat_setWidth, href, BitVec.toNat_ofInt]
  omega

theorem velocityWrites_eq_spec (c : Params) (v : Velocity) : velocityWrites c v = Spec.velocityWrites c v := by
  simp [velocityWrites, Spec.velocityWrites, audible_eq_spec, attenuation_eq_ofInt, tlAddress, slotAddress]

/-- Two ports of three voice slots (R188). -/
theorem length_spec_velocityWrites (c : Params) (v : Velocity) :
    (Spec.velocityWrites c v).length = 6 * (Spec.audible c.alg).length := by
  simp only [Spec.velocityWrites, List.flatMap_cons, List.flatMap_nil, List.length_append, List.length_map,
    List.length_nil]
  omega

theorem portOf_indexOf (i : Fin 6) : portOf (indexOf i) = Spec.port i := by
  obtain ⟨hport, _⟩ := derivedFieldsOfASlot i
  exact hport

/-- A register of a voice is its base address plus the `offset` of R22's table (R67). -/
theorem slotAddress_offsetOf (base : Byte) (i : Fin 6) :
    slotAddress base (offsetOf (indexOf i)) = base + BitVec.ofNat 8 (Spec.offset i) := by
  have h : (offsetOf (indexOf i)).setWidth 8 = BitVec.ofNat 8 (Spec.offset i) := by revert i; decide
  rw [slotAddress, h]

theorem freqHiWrite_eq (i : Fin 6) (high : Byte) :
    freqHiWrite i high = ⟨BitVec.ofNat 8 (0xA4 + Spec.offset i), high, Spec.port i⟩ := by
  rw [freqHiWrite, freqHiAddress, slotAddress_offsetOf, portOf_indexOf, BitVec.ofNat_add]
  rfl

theorem freqLoWrite_eq (i : Fin 6) (low : Byte) :
    freqLoWrite i low = ⟨BitVec.ofNat 8 (0xA0 + Spec.offset i), low, Spec.port i⟩ := by
  rw [freqLoWrite, freqLoAddress, slotAddress_offsetOf, portOf_indexOf, BitVec.ofNat_add]
  rfl

theorem keyOnWrite_eq (c : Params) (i : Fin 6) :
    keyOnWrite c (keyOffsetOf (indexOf i)) = ⟨0x28, BitVec.ofNat 8 (0xF0 + Spec.keyOffset i), c.keyPort⟩ := by
  have h : keyOnData (keyOffsetOf (indexOf i)) = BitVec.ofNat 8 (0xF0 + Spec.keyOffset i) := by revert i; decide
  rw [keyOnWrite, h, keyReg]

theorem keyOffWrite_eq (c : Params) (i : Fin 6) :
    keyOffWrite c (keyOffsetOf (indexOf i)) = ⟨0x28, BitVec.ofNat 8 (Spec.keyOffset i), c.keyPort⟩ := by
  have h : keyOffData (keyOffsetOf (indexOf i)) = BitVec.ofNat 8 (Spec.keyOffset i) := by revert i; decide
  rw [keyOffWrite, h, keyReg]

theorem keyOnWrites_eq_spec (c : Params) (i : Fin 6) (high low : Byte) (v : Velocity) :
    keyOnWrites c i high low v = Spec.keyOnWrites c i high low v := by
  rw [keyOnWrites, Spec.keyOnWrites, freqHiWrite_eq, freqLoWrite_eq, keyOnWrite_eq, velocityWrites_eq_spec]

/-- Settles O33: the byte is the difference of R187 mod 256, which is negative above 100. -/
theorem attenuationWrapsAbove100 : Obligations.AttenuationWrapsAbove100 := by
  intro v
  have hv := v.isLt
  rw [attenuation_eq_ofInt, BitVec.toNat_ofInt]
  omega

/-! ### `VELOCITY`, `VOICE_PROGRAM` and `INIT` -/

/-- An operation that does nothing but register writes completes with them, from rest (R99, R160, R188, R195). -/
theorem exec_plainWrites {i : Instr} {s : State} {ws : List RegWrite} (hs : s.tx = .none)
    (h : plainWrites s.cfg i = some ws) :
    ∃ t, exec i s = .next t ∧ Wrote ws s t ∧ t.pool = s.pool ∧ SameFront s t ∧ SameResponse s t ∧ SameControl s t :=
  ⟨_, exec_of_plainWrites h, regWrites_wrote ws s hs, regWrites_pool ws s, regWrites_sameFront ws s,
    regWrites_sameResponse ws s, regWrites_sameControl ws s⟩

/-- Settles O34: `VELOCITY` is its writes, and the log has grown by them. -/
theorem velocityWritesEveryVoice : Obligations.VelocityWritesEveryVoice := by
  intro s v hs
  obtain ⟨t, hexec, hwrote, hframe⟩ := exec_plainWrites (i := .velocity v) hs rfl
  rw [velocityWrites_eq_spec] at hwrote
  have ⟨hlog, _⟩ := hwrote
  refine ⟨t, hexec, hwrote, ?_, hframe⟩
  rw [hlog, List.length_append, length_spec_velocityWrites]

/-- Settles O35: `VOICE_PROGRAM` is the writes of its list. -/
theorem voiceProgramPlaysTheList : Obligations.VoiceProgramPlaysTheList := fun _ hs => exec_plainWrites hs rfl

/-- Settles O36: the writes are the voice program's, and neither the pool reset before them nor the end of the command
after them is seen at the pins. -/
theorem initResetsPoolAndPlaysVoices : Obligations.InitResetsPoolAndPlaysVoices := by
  intro s hs
  have hwrote : Wrote s.cfg.voiceProgram s (playVoiceProgram (poolReset s)) :=
    wrote_from (regWrites_wrote s.cfg.voiceProgram (poolReset s) hs) rfl ⟨rfl, rfl, rfl, rfl, rfl⟩
  refine ⟨_, rfl, fun i => ?_, rfl, wrote_to hwrote ⟨rfl, rfl, rfl, rfl, rfl⟩, finish_ended _ _ _ _,
    regWrites_sameFront _ (poolReset s)⟩
  simp [Slot.unset]

/-! ### Refusals -/

/-- The model's end of a failed command is the statements' own refusal (R214). -/
theorem raise_eq_refused (st : Status) (s : State) : raise st s = refused st s := rfl

/-- `KEY_ON` ends with the first check that fails (R181, R182). -/
theorem execKeyOn_of_check {n : Note} (v : Velocity) {s : State} {st : Status} (h : keyOnCheck s n = some st) :
    execKeyOn n v s = .next (refused st s) := by
  simp only [execKeyOn, h, raise_eq_refused]

theorem keyOnCheck_of_not_inited {s : State} (n : Note) (hinit : s.inited = false) :
    keyOnCheck s n = some .notInitialised := if_pos hinit

theorem keyOnCheck_of_lt {s : State} {n : Note} (hinit : s.inited = true) (hn : 131 < n.toNat) :
    keyOnCheck s n = some .rangeError := by
  have hr : outOfRange n = true := decide_eq_true hn
  simp [keyOnCheck, hinit, hr]

/-- On a full pool a `KEY_ON` that passes its checks has no voice to sound (R142). -/
theorem execKeyOn_of_full {n : Note} (v : Velocity) {s : State} (hinit : s.inited = true) (hn : n.toNat ≤ 131)
    (hfull : s.pool.Full) : execKeyOn n v s = .next (refused .resourceExhausted s) := by
  rcases execKeyOn_cases n v s with ⟨st, hc, _⟩ | ⟨_, _, h⟩ | ⟨_, i, _, _, hi, _⟩
  · simp [keyOnCheck_eq_none hinit hn] at hc
  · exact h
  · exact absurd hfull (not_full_of_lowestFree hi)

theorem execKeyOff_of_not_inited (n : Note) {s : State} (hinit : s.inited = false) :
    execKeyOff n s = .next (refused .notInitialised s) := by
  simp only [execKeyOff, keyOffCheck, if_pos hinit, raise_eq_refused]

/-- `KEY_OFF` of a note that no active slot holds finds nothing to silence (R145, R191). -/
theorem execKeyOff_of_unheld {n : Note} {s : State} (hinit : s.inited = true) (hc : s.pool.Consistent)
    (hn : ∀ i, ¬ s.pool.Holds i n) : execKeyOff n s = .next (refused .notFound s) := by
  have hr := release_of_unheld hc hn
  rcases execKeyOff_cases n s with ⟨hno, _⟩ | ⟨_, f, hf, _⟩ | ⟨_, _, h⟩ | ⟨_, k, pool, hk, _⟩
  · cases hno.symm.trans hinit
  · cases hf.symm.trans hr
  · exact h
  · cases hk.symm.trans hr

/-! ### The whole commands -/

/-- Settles O37: the checks decide the refusals, and past them the slot sounded is the lowest free one. -/
theorem keyOnSoundsTheLowestFreeVoice : Obligations.KeyOnSoundsTheLowestFreeVoice := by
  refine fun s n v => ⟨fun hinit => execKeyOn_of_check v (keyOnCheck_of_not_inited n hinit),
    fun hinit hn => execKeyOn_of_check v (keyOnCheck_of_lt hinit hn), fun hinit hn => execKeyOn_of_full v hinit hn,
    fun hs hinit hn i hi => ?_⟩
  obtain ⟨j, high, low, t, hj, he, hexec, hpool, hended, hwrote, hinited, hfront⟩ :=
    execKeyOn_sounds v hs hinit hn (not_full_of_lowestFree hi)
  obtain rfl := lowestFree_unique hi hj
  rw [keyOnWrites_eq_spec] at hwrote
  rw [keyOffsetOf_indexOf] at hended
  refine ⟨high, low, t, execEncode_of_some he, hexec, ?_, fun j hj => ?_, hwrote, hended, hinited.trans hinit, hfront⟩
  · rw [hpool, slot_put_same]
    rfl
  · rw [hpool, slot_put_of_ne _ _ hj]

/-- Settles O38: past the check the answer is that of `RELEASE`, and the one write carries its `keyOffset`. -/
theorem keyOffSilencesTheFirstMatch : Obligations.KeyOffSilencesTheFirstMatch := by
  refine fun s n => ⟨execKeyOff_of_not_inited n, execKeyOff_of_unheld, fun hs hinit hc hx i hi => ?_⟩
  obtain ⟨t, hexec, hpool, hended, hwrote, hinited, hfront⟩ := execKeyOff_silences hs hinit hc hx hi
  rw [keyOffWrite_eq] at hwrote
  rw [keyOffsetOf_indexOf] at hended
  refine ⟨t, hexec, ?_, fun j hj => ?_, hwrote, hended, hinited.trans hinit, hfront⟩
  · rw [hpool, slot_put_same]
    rfl
  · rw [hpool, slot_put_of_ne _ _ hj]

/-- An active slot's note has bytes, so it is at most 131 (R149 item 5). -/
theorem not_holds_of_lt {c : Params} {pool : Pool} {n : Note} (he : pool.Encoded c) (hn : 131 < n.toNat) (i : Fin 6) :
    ¬ pool.Holds i n := by
  rintro ⟨hactive, hnote⟩
  obtain ⟨m, _, _, hm, hle, _⟩ := he i hactive
  cases hnote.symm.trans hm
  exact absurd hn (not_lt.2 hle)

/-- Settles O42: no slot holds such a note, so `KEY_OFF` does not find it. -/
theorem keyOffAbove131IsNotFound : Obligations.KeyOffAbove131IsNotFound := by
  rintro s n hinit ⟨hc, _, he⟩ hn
  exact ⟨_, execKeyOff_of_unheld hinit hc (not_holds_of_lt he hn), rfl, rfl, rfl, rfl, rfl, rfl, rfl⟩

/-- Settles O39: the reserved code is refused before anything is looked at. -/
theorem reservedCodeIsIllegal : Obligations.ReservedCodeIsIllegal := fun s =>
  ⟨congrArg Host.Outcome.next (raise_eq_refused .illegalCommand s), rfl⟩

end Sys2Proof.Machine
end

section
/-! The statements of 60_exceptions.md: the outcome of each command (R219, R211), that a failed command has no other
effect (R214), the range of the outcome codes (R211, R28), and the command presented in reset (R229). -/

namespace Sys2Proof.Machine

/-! ### How a command ends -/

/-- The rows that do nothing but register writes are not host commands (R90). -/
theorem hostWord_of_plainWrites {c : Params} {i : Instr} {ws : List RegWrite} (h : plainWrites c i = some ws) :
    hostWord i = none := by
  cases i <;> cases h <;> rfl

/-- A host command is refused, with no effect but its answer, or ends with OK (R214, R28). -/
theorem Answers.refused_or_ok {i : Instr} {s t : State} (h : Answers s i t) (hi : hostWord i ≠ none) :
    (∃ st, t = refused st s) ∨ ∃ index keyoff u, t = finish .ok index keyoff u := by
  cases h with
  | keyOnRefused _ _ st | keyOffRefused _ st => exact .inl ⟨st, raise_eq_refused st s⟩
  | reservedOp3 => exact .inl ⟨.illegalCommand, raise_eq_refused _ s⟩
  | init | keyOn | keyOff => exact .inr ⟨_, _, _, rfl⟩
  | writes _ _ hw => exact absurd (hostWord_of_plainWrites hw) hi
  | encode | allocateRefused | allocate | releaseNotFound | release | poolReset => exact absurd rfl hi

/-- Settles O41: what is not refused has ended with OK, whose code is 0. -/
theorem failedCommandHasNoEffect : Obligations.FailedCommandHasNoEffect := by
  rintro i s t ⟨w, hw⟩ h hstatus
  rcases (exec_answers h).refused_or_ok (by simp [hw]) with ⟨st, rfl⟩ | ⟨index, keyoff, u, rfl⟩
  · exact ⟨st, rfl, rfl⟩
  · exact absurd (finish_rspStatus .ok index keyoff u) hstatus

/-! ### The outcome codes -/

/-- The codes of R211's table. -/
theorem Status.code_le_five (st : Status) : st.code.toNat ≤ 5 := by
  cases st <;> decide

/-- A status that was left alone or is an outcome's code stays in range. -/
theorem rspStatus_le_five {s t : State} (h : t.rspStatus = s.rspStatus ∨ ∃ st : Status, t.rspStatus = st.code)
    (hs : s.rspStatus.toNat ≤ 5) : t.rspStatus.toNat ≤ 5 := by
  rcases h with h | ⟨st, h⟩ <;> rw [h]
  · exact hs
  · exact st.code_le_five

/-- No row but the four of format H touches the latches, `busy` or `seq` (R28, R29). -/
theorem Answers.sameResponse {i : Instr} {s t : State} (h : Answers s i t) (hi : hostWord i = none) :
    SameResponse s t ∧ t.busy = s.busy ∧ t.seq = s.seq := by
  cases h with
  | init | keyOnRefused | keyOn | keyOffRefused | keyOff | reservedOp3 => cases hi
  | writes _ ws => exact ⟨regWrites_sameResponse ws s, regWrites_busy ws s, regWrites_seq ws s⟩
  | encode | allocateRefused | allocate | releaseNotFound | release | poolReset =>
    exact ⟨⟨rfl, rfl, rfl, rfl⟩, rfl, rfl⟩

/-- Row `DONE` latches the code of its outcome, whatever value DP holds (R28). -/
theorem rowDone_rspStatus (st : Status) (s : State) : (rowDone st s).rspStatus = st.code := by
  unfold rowDone
  split <;> rfl

/-- Of the rows of R29, `DONE` alone latches an outcome. -/
theorem advance_rspStatus {s t : State} (h : advance s = .next t) :
    t.rspStatus = s.rspStatus ∨ ∃ st : Status, t.rspStatus = st.code := by
  have hwrite : ∀ (w : RegWrite) (q : Seq), { regWrite w s with seq := q }.rspStatus = s.rspStatus := fun w _ =>
    regWrite_rspStatus w s
  cases hq : s.seq <;> simp only [advance, hq] at h
  case done st => cases h; exact .inr ⟨st, rowDone_rspStatus st s⟩
  all_goals left
  case idle | decode => cases h; rfl
  case onCheck | offCheck => split at h <;> cases h <;> rfl
  case onAlloc =>
    cases h
    unfold rowOnAlloc
    split <;> rfl
  case onFhi | onFlo =>
    simp only [rowOnFhi, rowOnFlo] at h
    split at h
    · cases h
    split at h <;> cases h
    exact hwrite _ _
  case onVel => cases h; exact applyVelocity_rspStatus _ s
  case onKey | offKey =>
    simp only [rowOnKey, rowOffKey] at h
    split at h <;> cases h
    exact hwrite _ _
  case offRel =>
    unfold rowOffRel at h
    split at h <;> cases h <;> rfl
  case initRun => cases h; exact playVoiceProgram_rspStatus (poolReset s)

/-- A step leaves the status alone or latches an outcome's code; the 0 of a reset is that of OK (R36, R211). -/
theorem step_rspStatus {s t : State} (h : step s = .next t) :
    t.rspStatus = s.rspStatus ∨ ∃ st : Status, t.rspStatus = st.code := by
  rcases step_cases h with ⟨l, rest, _, rfl⟩ | ⟨_, rfl⟩ | ⟨_, _, ha⟩ | ⟨_, _, _, w, rest, _, rfl⟩ |
    ⟨_, _, _, w, rest, _, he⟩ | ⟨_, _, _, rfl⟩
  · cases l with
    | asserted => exact .inr ⟨.ok, rfl⟩
    | deasserted => exact .inl rfl
  · exact .inl (busAdvance_rspStatus s)
  · exact advance_rspStatus ha
  · exact .inl rfl
  · obtain ⟨st, index, keyoff, u, rfl⟩ := exec_decodeHost_finishes he
    exact .inr ⟨st, rfl⟩
  · exact .inl rfl

/-- Settles O55: a command is refused or ends with OK, and a step latches nothing but an outcome's code. -/
theorem outcomeCodesStayInRange : Obligations.OutcomeCodesStayInRange := by
  refine ⟨fun _ _ _ h => ⟨fun ⟨w, hw⟩ => ?_, (exec_answers h).sameResponse⟩,
    fun _ _ hs h => rspStatus_le_five (step_rspStatus h) hs⟩
  rcases (exec_answers h).refused_or_ok (by simp [hw]) with ⟨st, rfl⟩ | ⟨index, keyoff, u, rfl⟩
  · exact ⟨st.code_le_five, rfl, rfl, rfl⟩
  · exact ⟨Status.code_le_five .ok, rfl, rfl, rfl⟩

/-! ### The order of the checks -/

/-- Past the checks a free slot is all that `KEY_ON` needs to end with OK, from any state of the bus (R186). -/
theorem execKeyOn_of_not_full {n : Note} (v : Velocity) {s : State} (hinit : s.inited = true) (hn : n.toNat ≤ 131)
    (hfree : ¬ s.pool.Full) : ∃ t, execKeyOn n v s = .next t ∧ t.rspStatus = 0 := by
  rcases execKeyOn_cases n v s with ⟨st, hc, _⟩ | ⟨_, hfull, _⟩ | ⟨_, i, high, low, _, _, h⟩
  · simp [keyOnCheck_eq_none hinit hn] at hc
  · exact absurd hfull hfree
  · exact ⟨_, h, rfl⟩

/-- A held note has a first slot to release (R144). -/
theorem release_of_held {n : Note} {pool : Pool} {i : Fin 6} (hc : pool.Consistent) (hi : pool.Holds i n) :
    ∃ k pool', release n pool = .ok (.keyOffset k pool') := by
  rcases release_cases n pool hc with ⟨_, _, _, _, hr⟩ | ⟨hnone, _⟩
  · exact ⟨_, _, hr⟩
  · exact absurd hi (hnone i)

/-- Past the check a held note is all that `KEY_OFF` needs to end with OK, from any state of the bus (R193). -/
theorem execKeyOff_of_held {n : Note} {s : State} {i : Fin 6} (hinit : s.inited = true) (hc : s.pool.Consistent)
    (hi : s.pool.Holds i n) : ∃ t, execKeyOff n s = .next t ∧ t.rspStatus = 0 := by
  obtain ⟨k, pool, hr⟩ := release_of_held hc hi
  rcases execKeyOff_cases n s with ⟨hno, _⟩ | ⟨_, f, hf, _⟩ | ⟨_, hf, _⟩ | ⟨_, _, _, _, h⟩
  · cases hno.symm.trans hinit
  · cases hf.symm.trans hr
  · cases hf.symm.trans hr
  · exact ⟨_, h, rfl⟩

/-- Settles O40: each refusal latches the code of the first check that fails, and what passes them all ends with OK. -/
theorem outcomePriority : Obligations.OutcomePriority := fun _ n v =>
  ⟨⟨_, rfl, rfl⟩, ⟨_, rfl, rfl⟩,
    fun hinit => ⟨_, execKeyOn_of_check v (keyOnCheck_of_not_inited n hinit), rfl⟩,
    fun hinit hn => ⟨_, execKeyOn_of_check v (keyOnCheck_of_lt hinit hn), rfl⟩,
    fun hinit hn hfull => ⟨_, execKeyOn_of_full v hinit hn hfull, rfl⟩,
    fun hinit hn hfree => execKeyOn_of_not_full v hinit hn hfree,
    fun hinit => ⟨_, execKeyOff_of_not_inited n hinit, rfl⟩,
    fun hinit hc hn => ⟨_, execKeyOff_of_unheld hinit hc hn, rfl⟩,
    fun hinit hc ⟨_, hi⟩ => execKeyOff_of_held hinit hc hi⟩

/-! ### Commands presented in reset -/

/-- Settles O12: past the write in flight and the running command the step looks at `RESET` before it accepts. -/
theorem noCommandInReset : Obligations.NoCommandInReset := by
  intro s w rest htx hbusy hreset hin
  have hidle : idleStep s = .next { s with inputs := rest, rspValid := false } := by
    simp only [idleStep, hin, if_pos hreset]
  calc step s
    _ = runningStep s := by simp only [step, blockStep, hin]
    _ = idleStep s := by simp [runningStep, htx, hbusy]
    _ = .next { s with inputs := rest, rspValid := false } := hidle

end Sys2Proof.Machine
end

section
/-! The statements of 70_reset_and_hazards.md: the state after reset (R242), the reset input (R240, R241), and the
order of the writes of a note command (R249, R250). -/

namespace Sys2Proof.Machine

/-! ### The order of a note command's writes -/

/-- Every write of `VELOCITY` goes to the Total-Level register of an operator of one of the three voice slots (R188). -/
theorem spec_velocityWrites_address {c : Params} {v : Velocity} {w : RegWrite} (hw : w ∈ Spec.velocityWrites c v) :
    ∃ op, ∃ m < 3, w.address = c.tl op + BitVec.ofNat 8 m := by
  simp only [Spec.velocityWrites, List.mem_flatMap, List.mem_map] at hw
  obtain ⟨_, _, n, hn, op, _, rfl⟩ := hw
  have hslot : ∀ n ∈ [0#8, 1#8, 2#8], n.toNat < 3 ∧ n = BitVec.ofNat 8 n.toNat := by decide
  obtain ⟨hlt, heq⟩ := hslot n hn
  exact ⟨op, n.toNat, hlt, congrArg (c.tl op + ·) heq⟩

/-- A `KEY_OFF` appends nothing, or the key-off write of one voice (R192). -/
theorem execKeyOff_log {n : Note} {s t : State} (hs : s.tx = .none) (h : execKeyOff n s = .next t) :
    t.log = s.log ∨ ∃ k, t.log = s.log ++ [keyOffWrite s.cfg k] := by
  cases execKeyOff_answers h with
  | keyOffRefused n st => exact .inl (raise_log st s)
  | keyOff n j k =>
    obtain ⟨_, _, ⟨hlog, _⟩, _, _⟩ := completed_finish (Pool.put s.pool j Slot.unset) [keyOffWrite s.cfg k] 0 k hs
    exact .inr ⟨k, hlog⟩
  | writes _ _ hw => cases hw

/-- A `KEY_ON` appends nothing, or the spec's list of writes of the voice it answers (R183 to R186). -/
theorem execKeyOn_log {n : Note} {v : Velocity} {s t : State} (hs : s.tx = .none) (h : execKeyOn n v s = .next t) :
    t.log = s.log ∨
      ∃ i high low, t.rspIndex = indexOf i ∧ t.log = s.log ++ Spec.keyOnWrites s.cfg i high low v := by
  cases execKeyOn_answers h with
  | keyOnRefused n v st => exact .inl (raise_log st s)
  | keyOn n v i high low he =>
    obtain ⟨_, _, ⟨hlog, _⟩, _, _⟩ := completed_finish (Pool.put s.pool i (allocatedSlot i n v high low))
      (keyOnWrites s.cfg i high low v) (indexOf i) (keyOffsetOf (indexOf i)) hs
    exact .inr ⟨i, high, low, rfl, by rw [hlog, keyOnWrites_eq_spec]⟩
  | writes _ _ hw => cases hw

/-- Settles O56: the spec's list for `KEY_ON` has the Total-Level writes between the frequency writes and the key-on
write, and `KEY_OFF` has no list but its one write. -/
theorem frequencyWritesPrecedeKeyOn : Obligations.FrequencyWritesPrecedeKeyOn := by
  refine fun s t n v hs => ⟨execKeyOff_log hs, fun h => (execKeyOn_log hs h).imp_right ?_⟩
  rintro ⟨i, high, low, hindex, hlog⟩
  exact ⟨i, high, low, Spec.velocityWrites s.cfg v, hindex, fun _ => spec_velocityWrites_address, hlog⟩

/-! ### Reset -/

/-- The reset input acts before anything else is looked at (R240). -/
theorem step_of_resetInput {s : State} {l : Line} {rest : List HostEvent} (hin : s.inputs = .resetInput l :: rest) :
    step s = .next (hardwareReset l rest s) := by
  simp only [step, blockStep, hin]

/-- Settles O10: every field has the value of R36, and the block has nothing to do but wait. -/
theorem stateAfterReset : Obligations.StateAfterReset :=
  ⟨pool_empty_get, rfl, rfl, rfl, rfl, rfl, rfl, rfl, rfl, rfl, rfl, rfl, rfl, rfl, rfl, rfl,
    idleBlockWaits State.reset rfl rfl rfl⟩

/-- Settles O11: asserted, the input leaves the state after reset of the same parameters. -/
theorem resetInputActsAtOnce : Obligations.ResetInputActsAtOnce :=
  ⟨fun _ _ hin => ⟨_, step_of_resetInput hin, rfl, rfl, pool_empty_get, rfl, rfl, rfl, rfl, rfl, rfl, rfl, rfl,
      fun _ _ => rfl, rfl, rfl, rfl, rfl, rfl, rfl, rfl⟩,
    fun _ _ hin => step_of_resetInput hin⟩

end Sys2Proof.Machine
end
